-- ==== Sys2Proof/Word.lean ====
section
/-!
DEFINITION. The data types of CORE: the 64-bit word (spec/00_scope.md R5, R6), the byte cell of the
array's representation (log 1) and the 4-word hash result (R5 `HN` = 4).
-/

namespace Sys2Proof

/-- A word, mask, accumulator or operand: an unsigned 64-bit integer, arithmetic modulo 2^64
(spec/00_scope.md R5 `XLEN`, R6). -/
abbrev Word := BitVec 64

/-- Eight bits of an array word, as one `Host.Cell` holds them (log 1). -/
abbrev Byte := BitVec 8

/-- The command word on port `CMD` (spec/00_scope.md R5 `CMDW`, spec/30_encoding.md R70). -/
abbrev CmdWord := BitVec 9

/-- The hash result, "a fixed-size tuple of 4 unsigned 64-bit integers" (spec/00_scope.md R5, R9). -/
structure HashResult where
  /-- element 0, port `H0` -/
  h0 : Word
  /-- element 1, port `H1` -/
  h1 : Word
  /-- element 2, port `H2` -/
  h2 : Word
  /-- element 3, port `H3` -/
  h3 : Word
deriving DecidableEq, Repr

end Sys2Proof
end

