-- ==== Sys2Proof/Syntax.lean ====
section
/-!
DEFINITION. The commands of CORE as syntax: one constructor per row of spec/opcode_table.json
(spec/30_encoding.md R72). Each keeps the bits of `CT` that the row ignores, so that every one of the
512 command words is one `Instr` (log 9).
-/

namespace Sys2Proof

/-- A decoded command word (spec/30_encoding.md R70 to R73). `ct` and `ign` are ignored bits. -/
inductive Instr where
  /-- `000iiiiii`: no command (spec/40_primitives.md R97) -/
  | nop (ct : BitVec 6)
  /-- `001iiiiii`: equality of ports `A` and `B` (R91) -/
  | eq64 (ct : BitVec 6)
  /-- `010iiiiic`: select `A` when `cond` = 1, else `B` (R93) -/
  | sel64 (ign : BitVec 5) (cond : BitVec 1)
  /-- `011nnnnnn`: shift `A` left by `amount` (R95) -/
  | shl64 (amount : BitVec 6)
  /-- `100iiiiii`: the mask of word index `A` (spec/41_mask_builder.md R111) -/
  | mask (ct : BitVec 6)
  /-- `101iiiiii`: the membership test (spec/42_test_aggregator.md R121) -/
  | test (ct : BitVec 6)
  /-- `110iiiiii`: reserved, executed as NOP (spec/30_encoding.md R73) -/
  | rsv6 (ct : BitVec 6)
  /-- `111iiiiii`: reserved, executed as NOP (R73) -/
  | rsv7 (ct : BitVec 6)
deriving DecidableEq, Repr

end Sys2Proof
end

