-- ==== Sys2Proof/WellFormed.lean ====
section
/-!
DEFINITION. Well-formed syntax: the canonical commands, "every ignored bit 0"
(spec/30_encoding.md R73, R79). The machine runs the other words too (log 9).
-/

namespace Sys2Proof

/-- The instruction with every ignored bit 0: its canonical form (spec/30_encoding.md R79). -/
def Instr.canonical : Instr → Instr
  | .nop _ => .nop 0
  | .eq64 _ => .eq64 0
  | .sel64 _ cond => .sel64 0 cond
  | .shl64 amount => .shl64 amount
  | .mask _ => .mask 0
  | .test _ => .test 0
  | .rsv6 _ => .rsv6 0
  | .rsv7 _ => .rsv7 0

/-- Whether every ignored bit is 0 (spec/30_encoding.md R79). `cond` and `amount` need no check:
their types hold exactly the legal values (spec/40_primitives.md R96). -/
def Instr.wellFormed : Instr → Bool
  | .nop ct => ct == 0
  | .eq64 ct => ct == 0
  | .sel64 ign _ => ign == 0
  | .shl64 _ => true
  | .mask ct => ct == 0
  | .test ct => ct == 0
  | .rsv6 ct => ct == 0
  | .rsv7 ct => ct == 0

/-- The instruction is in its canonical form. -/
abbrev Instr.WellFormed (i : Instr) : Prop := i.wellFormed = true

end Sys2Proof
end

