-- ==== Sys2Proof/Decode.lean ====
section
/-!
DEFINITION. Decoding and encoding of the command word (spec/30_encoding.md R70 to R73). Decoding is
total on the 512 words of the 9-bit port; a wider number is no command word and is refused by name.
-/

namespace Sys2Proof

/-- `OP = CMD[8:6]` (spec/30_encoding.md R70). -/
def opField (w : CmdWord) : BitVec 3 := w.extractLsb' 6 3

/-- `CT = CMD[5:0]` (R70). -/
def ctField (w : CmdWord) : BitVec 6 := w.extractLsb' 0 6

/-- `cond = CT[0]` (R71). -/
def condField (w : CmdWord) : BitVec 1 := w.extractLsb' 0 1

/-- `CT[5:1]`, which SEL64 ignores (R71, R72). -/
def selIgnoredField (w : CmdWord) : BitVec 5 := w.extractLsb' 1 5

/-- The operation table of R72: the row that `OP` selects. -/
def decode (w : CmdWord) : Instr :=
  match (opField w).toNat with
  | 0 => .nop (ctField w)
  | 1 => .eq64 (ctField w)
  | 2 => .sel64 (selIgnoredField w) (condField w)
  | 3 => .shl64 (ctField w)
  | 4 => .mask (ctField w)
  | 5 => .test (ctField w)
  | 6 => .rsv6 (ctField w)
  | _ => .rsv7 (ctField w)

/-- Why a number is not a command word. -/
inductive DecodeError where
  /-- a bit above bit 8 is set, or fewer than 9 bits were given: the port is 9 bits wide (R70) -/
  | notNineBits
deriving DecidableEq, Repr

/-- Decoding a number of `nbits` bits: the low 9 bits are the port's, the rest must be 0 (log 14). -/
def decodeWord (nbits w : Nat) : Except DecodeError Instr :=
  if nbits < 9 then .error .notNineBits
  else if w < 512 then .ok (decode (BitVec.ofNat 9 w))
  else .error .notNineBits

/-- What the decoder reads from an instruction whose bits are `w`, `none` where it refuses. -/
def decodeTableWord (nbits w : Nat) : Option Instr :=
  match decodeWord nbits w with
  | .ok i => some i
  | .error _ => none

/-- The operation code of the instruction's row (R72). -/
def Instr.opcode : Instr → BitVec 3
  | .nop _ => 0b000
  | .eq64 _ => 0b001
  | .sel64 _ _ => 0b010
  | .shl64 _ => 0b011
  | .mask _ => 0b100
  | .test _ => 0b101
  | .rsv6 _ => 0b110
  | .rsv7 _ => 0b111

/-- The control operand `CT` of the instruction (R71, R72). -/
def Instr.control : Instr → BitVec 6
  | .nop ct => ct
  | .eq64 ct => ct
  | .sel64 ign cond => ign ++ cond
  | .shl64 amount => amount
  | .mask ct => ct
  | .test ct => ct
  | .rsv6 ct => ct
  | .rsv7 ct => ct

/-- The command word of an instruction: `OP` in bits 8:6, `CT` in bits 5:0 (R70). -/
def encode (i : Instr) : CmdWord := i.opcode ++ i.control

end Sys2Proof
end

