-- ==== Sys2Proof/Config.lean ====
section
/-!
DEFINITION. The parameters of CORE (spec/00_scope.md R5), the uninterpreted position function
(R13) and the free values: constants without a body, of which nothing can be proved.
-/

namespace Sys2Proof

/-- Width of every word (spec/00_scope.md R5). -/
def Config.XLEN : Nat := 64
/-- Number of words of the hash result (R5). -/
def Config.HN : Nat := 4
/-- Width of a shift amount (R5). -/
def Config.SHW : Nat := 6
/-- Number of stages of the SHL unit (R5). -/
def Config.STAGES : Nat := 6
/-- Width of `K`, `KR`, `J` (R5, decision D10). -/
def Config.KW : Nat := 64
/-- Width of `NW`, `NWR`, `I` and of a word address (R5, decision D10). -/
def Config.NWW : Nat := 64
/-- Width of a bit position (R5, decision D10). -/
def Config.PW : Nat := 64
/-- Width of the command word (R5, decision D4). -/
def Config.CMDW : Nat := 9

/-- `Position(h, j)`: the position-derivation function of the external collaborator, "an
uninterpreted total function" (spec/00_scope.md R13, spec/10_state.md R38; log 8). -/
opaque Config.position : HashResult → Word → Word

/-- The `n`-th free 64-bit value: what the spec leaves unspecified (registers after a reset step,
spec/70_reset_and_hazards.md R160; a read the memory cannot answer, 93 U5; a read of an array
written during the TEST, 93 U4). Log 13. -/
opaque Config.freeWord : Nat → Word

/-- The `n`-th free bit: the unspecified `MODE` after a reset step (R160). Log 13. -/
opaque Config.freeBit : Nat → Bool

end Sys2Proof
end

