-- ==== Sys2Proof/Machine/State.lean ====
section
/-!
DEFINITION. The state of CORE (spec/10_state.md R20), the port records of the coming edges (R34),
what stands behind the two collaborator ports (R37, R38), the state after reset (R42), and the ways a
step can stop: none (spec/60_exceptions.md R140).
-/

namespace Sys2Proof.Machine

/-- The sequencer state `ST` (spec/10_state.md R24). -/
inductive Seq where
  /-- no operation running; the step decodes `CMD` -/
  | idle
  /-- the next step performs one round of the mask builder -/
  | round
  /-- the next step reads one array word and accumulates -/
  | word
  /-- the next step writes `R`, sets `DONE`, returns to IDLE -/
  | fin
deriving DecidableEq, Repr

/-- `MODE`: which multi-step operation is running (spec/10_state.md R25). -/
inductive Mode where
  /-- MASK runs -/
  | mask
  /-- TEST runs -/
  | test
deriving DecidableEq, Repr

/-- The input ports at one rising edge (spec/10_state.md R34), and what the inserter writes to the
array at that edge (spec/00_scope.md R12; log 6). -/
structure Inputs where
  /-- port `rst`: synchronous reset, active high -/
  rst : Bool
  /-- port `CMD` -/
  cmd : CmdWord
  /-- port `A` -/
  a : Word
  /-- port `B` -/
  b : Word
  /-- ports `H0..H3` -/
  h : HashResult
  /-- port `K` -/
  k : Word
  /-- port `NW` -/
  nw : Word
  /-- the inserter's write at this edge: a word index and the word's new value -/
  insert : Option (Word × Word)
deriving DecidableEq, Repr

/-- An idle host: no reset, NOP on `CMD` (spec/70_reset_and_hazards.md R166), no array write. What
the ports carry when the list of records has run out (log 5). -/
def Inputs.quiet : Inputs :=
  { rst := false, cmd := 0, a := 0, b := 0, h := ⟨0, 0, 0, 0⟩, k := 0, nw := 0, insert := none }

/-- One answer of the connected position collaborator: `Position(h, j) = p` (log 8). -/
structure PosEntry where
  /-- the hash result asked with -/
  h : HashResult
  /-- the round index asked with -/
  j : Word
  /-- the answer -/
  p : Word
deriving DecidableEq, Repr

/-- The bit array as cells in canonical form: keys strictly rising; cell `8*i + b` holds bits
`8b+7 .. 8b` of word `i` (log 1). A key that is not listed holds nothing (log 2). -/
abbrev Memory := List Host.Cell

/-- The twelve registers of spec/10_state.md R20 (`hr` is four of them), then what stands behind
CORE's ports, then the model's own two fields. -/
structure State where
  /-- `ST` (R24) -/
  st : Seq
  /-- `DONE` (R22) -/
  done : Bool
  /-- `R` (R21) -/
  r : Word
  /-- `MODE` (R25) -/
  mode : Mode
  /-- `HR[0..3]` (R26) -/
  hr : HashResult
  /-- `KR` (R27) -/
  kr : Word
  /-- `NWR` (R27) -/
  nwr : Word
  /-- `I` (R28) -/
  i : Word
  /-- `J` (R29) -/
  j : Word
  /-- `M` (R32) -/
  m : Word
  /-- `V` (R33) -/
  v : Word
  /-- the bit array behind the array port (spec/20_memory.md R50; log 1) -/
  array : Memory
  /-- finite table of the connected position collaborator's answers (R38; log 8) -/
  positions : List PosEntry
  /-- the port records of the coming edges, the next one first (R34; log 5) -/
  inputs : List Inputs
  /-- the model's own: the array was written under the running TEST (log 7) -/
  disturbed : Bool
  /-- the model's own: how many free values have been drawn (log 13) -/
  draws : Nat
deriving DecidableEq, Repr

/-- Why CORE would stop with a fault: never. "The complete table of exception causes is therefore
empty" (spec/60_exceptions.md R140), so no definition of the model raises one (log 19). -/
inductive Fault where
deriving DecidableEq, Repr

/-- Why a command has no meaning. -/
inductive Refusal where
  /-- raised only by an arm of `exec` whose instruction has no meaning yet (safe); no arm raises it
  now -/
  | notModelled (mnemonic : String)
deriving DecidableEq, Repr

/-- CORE right after reset (spec/10_state.md R42): `ST` = IDLE, `DONE` = 0. The spec leaves the other
registers unspecified; the values here are the model's (log 3). Nothing is listed in the array (log
2), no collaborator answer is tabled (log 8), no port record waits (log 5). -/
def State.reset : State :=
  { st := .idle, done := false, r := 0, mode := .mask, hr := ⟨0, 0, 0, 0⟩, kr := 0, nwr := 0, i := 0,
    j := 0, m := 0, v := 0, array := [], positions := [], inputs := [], disturbed := false,
    draws := 0 }

end Sys2Proof.Machine
end

