-- ==== Sys2Proof/Machine/Flags.lean ====
section
/-!
DEFINITION. CORE's only flags, `DONE` (spec/10_state.md R22) and the derived `BUSY` (R23), and the
output ports, all functions of the registers (R35). There are no condition codes (R39).
-/

namespace Sys2Proof.Machine

/-- `BUSY`: 0 when `ST` is IDLE, 1 otherwise (spec/10_state.md R23). -/
def State.busy (s : State) : Bool := s.st != .idle

/-- `POS_REQ`: 1 when `ST` = ROUND (R35). -/
def State.posReq (s : State) : Bool := s.st == .round

/-- `MEM_REQ`: 1 when `ST` = WORD (R35). -/
def State.memReq (s : State) : Bool := s.st == .word

/-- The step that completes an operation: `R <- value`, `DONE <- 1` (R21, R22). -/
def State.complete (s : State) (value : Word) : State := { s with r := value, done := true }

/-- The output ports (spec/10_state.md R35). -/
structure Outputs where
  /-- port `R` -/
  r : Word
  /-- port `DONE` -/
  done : Bool
  /-- port `BUSY` -/
  busy : Bool
  /-- port `POS_REQ` -/
  posReq : Bool
  /-- ports `POS_H0..POS_H3` -/
  posH : HashResult
  /-- port `POS_J` -/
  posJ : Word
  /-- port `MEM_REQ` -/
  memReq : Bool
  /-- port `MEM_ADDR` -/
  memAddr : Word
deriving DecidableEq, Repr

/-- What the output ports show (R35): the request ports are 0 outside their request steps. -/
def State.outputs (s : State) : Outputs :=
  { r := s.r, done := s.done, busy := s.busy, posReq := s.posReq,
    posH := if s.posReq then s.hr else ⟨0, 0, 0, 0⟩,
    posJ := if s.posReq then s.j else 0,
    memReq := s.memReq,
    memAddr := if s.memReq then s.i else 0 }

end Sys2Proof.Machine
end

