-- ==== Sys2Proof/Machine/Operands.lean ====
section
/-!
DEFINITION. What a step reads from the ports: the record of the present edge and the operand forms of
the operations (spec/10_state.md R34, spec/30_encoding.md R71, R77), and the answer of the position
collaborator (spec/10_state.md R38).
-/

namespace Sys2Proof.Machine

/-- The port values at the present edge (spec/10_state.md R34; log 5). -/
def State.now (s : State) : Inputs := s.inputs.headD Inputs.quiet

/-- Port `A`: first data operand (spec/30_encoding.md R77). -/
def State.opA (s : State) : Word := s.now.a

/-- Port `B`: second data operand (R77). -/
def State.opB (s : State) : Word := s.now.b

/-- Ports `H0..H3`: the hash result (R77). -/
def State.opH (s : State) : HashResult := s.now.h

/-- Port `K`: the round count (spec/10_state.md R30). -/
def State.opK (s : State) : Word := s.now.k

/-- Port `NW`: the word count (spec/10_state.md R31). -/
def State.opNW (s : State) : Word := s.now.nw

/-- The answer the table gives for `(h, j)`, if it lists one (log 8). -/
def lookupPosition : List PosEntry → HashResult → Word → Option Word
  | [], _, _ => none
  | e :: rest, h, j => if e.h = h ∧ e.j = j then some e.p else lookupPosition rest h j

/-- `Position(h, j)` as the connected collaborator answers it: deterministic in `(h, j)`, total, and
otherwise anything (spec/00_scope.md R13, spec/10_state.md R38; log 8). -/
def State.position (s : State) (h : HashResult) (j : Word) : Word :=
  (lookupPosition s.positions h j).getD (Config.position h j)

end Sys2Proof.Machine
end

