-- ==== Sys2Proof/Machine/Units.lean ====
section
/-!
DEFINITION. The functional units of CORE as pure functions (spec/00_scope.md R2): EQ, SEL and SHL
units (spec/40_primitives.md R90, R92, R94), the position split (spec/20_memory.md R53), the mask
builder (spec/41_mask_builder.md R110) and the aggregator (spec/42_test_aggregator.md R120). The last
two take the position function and the array as arguments.
-/

namespace Sys2Proof.Machine

/-- EQ unit (spec/40_primitives.md R90): 1 if `x` equals `y`, else 0, by the source's bit trick. -/
def eq64 (x y : Word) : Word :=
  let d := x ^^^ y
  let t := (~~~d) &&& (d - 1)
  (t >>> 63) &&& 1

/-- SEL unit (spec/40_primitives.md R92): `x` if `cond` = 1, else `y`. `cond` is one bit (R96). -/
def select64 (cond : BitVec 1) (x y : Word) : Word :=
  let c64 := cond.setWidth 64
  let mask := ~~~(c64 - 1)
  (mask &&& x) ||| ((~~~mask) &&& y)

/-- Bit 0 of an `eq64` result, where a `cond` is needed (spec/40_primitives.md R94, R96). -/
def bit0 (c : Word) : BitVec 1 := c.extractLsb' 0 1

/-- Stage `t` of the SHL unit (spec/40_primitives.md R94) on the pair (value, remaining budget). -/
def shlStage (vr : Word × Word) (t : Nat) : Word × Word :=
  let s := (1 : Word) <<< t
  let c := eq64 (vr.2 &&& s) s
  (select64 (bit0 c) (vr.1 <<< (2 ^ t)) vr.1, select64 (bit0 c) (vr.2 - s) vr.2)

/-- The six stages, of sizes 32, 16, 8, 4, 2, 1 in that order (spec/00_scope.md R5, R94, R99). -/
def shlStages : List Nat := [5, 4, 3, 2, 1, 0]

/-- The pair (value, remaining budget) after the first `n` stages of the SHL unit (R94). -/
def shlAfter (n : Nat) (x : Word) (amount : BitVec 6) : Word × Word :=
  (shlStages.take n).foldl shlStage (x, amount.setWidth 64)

/-- SHL unit (spec/40_primitives.md R94): `x << amount`, always all six stages. -/
def shl64 (x : Word) (amount : BitVec 6) : Word := (shlAfter 6 x amount).1

/-- `p div 64 = zext_64(p[63:6])` (spec/20_memory.md R53). -/
def posWord (p : Word) : Word := (p.extractLsb' 6 58).setWidth 64

/-- `p mod 64 = p[5:0]` (spec/20_memory.md R53). -/
def posBit (p : Word) : BitVec 6 := p.extractLsb' 0 6

/-- What one round adds to the mask of word `w` (spec/41_mask_builder.md R110, R114). -/
def roundTerm (p w : Word) : Word := shl64 (eq64 (posWord p) w) (posBit p)

/-- The accumulator of `buildMask` after `n` rounds (spec/41_mask_builder.md R110). -/
def maskAcc (position : HashResult → Word → Word) (h : HashResult) (w : Word) : Nat → Word
  | 0 => 0
  | n + 1 => maskAcc position h w n ||| roundTerm (position h (BitVec.ofNat 64 n)) w

/-- `buildMask(h, k, w)` (spec/41_mask_builder.md R110). -/
def buildMask (position : HashResult → Word → Word) (h : HashResult) (k w : Word) : Word :=
  maskAcc position h w k.toNat

/-- The body `v |= (~word[i]) & mask` of the aggregator (spec/42_test_aggregator.md R120, R124). -/
def aggregate (v word mask : Word) : Word := v ||| ((~~~word) &&& mask)

/-- The accumulator `v` of `testResult` after `n` words (spec/42_test_aggregator.md R120). -/
def aggAcc (position : HashResult → Word → Word) (h : HashResult) (k : Word) (word : Word → Word) :
    Nat → Word
  | 0 => 0
  | n + 1 =>
    aggregate (aggAcc position h k word n) (word (BitVec.ofNat 64 n))
      (buildMask position h k (BitVec.ofNat 64 n))

/-- `testResult(h, k, nw, word)`: 1 = possibly present, 0 = definitely absent (R120). -/
def testResult (position : HashResult → Word → Word) (h : HashResult) (k nw : Word)
    (word : Word → Word) : Word :=
  eq64 (aggAcc position h k word nw.toNat) 0

end Sys2Proof.Machine
end

