-- ==== Sys2Proof/Machine/Ops.lean ====
section
/-!
DEFINITION. The named operations over the array and the registers: the array's cells and words
(spec/20_memory.md), `MemRead` (R52), the inserter's write and when it disturbs a TEST (R56, R164),
the sequencer's next-state function (spec/41_mask_builder.md R112), the latching of the configuration
(spec/10_state.md R26, R27) and the edge that ends every step. CORE takes no exception
(spec/60_exceptions.md R140, R144), so there is no operation that enters one.
-/

namespace Sys2Proof.Machine

/-! ### The array -/

/-- One more than the largest cell key: 8 cells for each of the 2^64 word indices (R50; log 1). -/
def cellLimit : Nat := 8 * 2 ^ 64

/-- The key of lane `b` (bits `8b+7 .. 8b`) of word `i` (log 1). -/
def cellKey (i : Word) (b : Nat) : Nat := 8 * i.toNat + b

/-- What an address holds: the listed byte, and nothing where none is listed (log 2). -/
def Memory.read? : Memory → Nat → Option Byte
  | [], _ => none
  | c :: rest, a => if c.1 = a then some c.2 else Memory.read? rest a

/-- Writing one cell, keeping the keys strictly rising. -/
def Memory.write : Memory → Nat → Byte → Memory
  | [], a, v => [(a, v)]
  | c :: rest, a, v =>
    if a < c.1 then (a, v) :: c :: rest
    else if a = c.1 then (a, v) :: rest
    else c :: Memory.write rest a v

/-- Keys strictly rising and all at or above `lo`. -/
def Memory.risingFrom : Nat → Memory → Bool
  | _, [] => true
  | lo, c :: rest => decide (lo ≤ c.1) && Memory.risingFrom (c.1 + 1) rest

/-- The canonical form: keys strictly rising and inside the address space. An unlisted key holds
nothing, so every listed byte differs from what an unlisted one reads as (log 1, log 2). -/
def Memory.wf (m : Memory) : Bool := Memory.risingFrom 0 m && m.all (fun c => decide (c.1 < cellLimit))

/-- The array word at word index `i`, if all its bits are listed (R50, R52). -/
def Memory.readWord? (m : Memory) (i : Word) : Option Word := do
  let b0 ← Memory.read? m (cellKey i 0)
  let b1 ← Memory.read? m (cellKey i 1)
  let b2 ← Memory.read? m (cellKey i 2)
  let b3 ← Memory.read? m (cellKey i 3)
  let b4 ← Memory.read? m (cellKey i 4)
  let b5 ← Memory.read? m (cellKey i 5)
  let b6 ← Memory.read? m (cellKey i 6)
  let b7 ← Memory.read? m (cellKey i 7)
  return b7 ++ b6 ++ b5 ++ b4 ++ b3 ++ b2 ++ b1 ++ b0

/-- Bits `8b+7 .. 8b` of a word (log 1). -/
def lane (w : Word) (b : Nat) : Byte := w.extractLsb' (8 * b) 8

/-- Writing the first `n` lanes of word `i`. -/
def Memory.writeLanes (m : Memory) (i v : Word) : Nat → Memory
  | 0 => m
  | n + 1 => Memory.write (Memory.writeLanes m i v n) (cellKey i n) (lane v n)

/-- The inserter's write of one whole word (R51: never CORE's). -/
def Memory.writeWord (m : Memory) (i v : Word) : Memory := Memory.writeLanes m i v 8

/-! ### The inserter and the array port -/

/-- The array after the inserter's write of an edge, if there is one (log 6). -/
def landWrite (m : Memory) : Option (Word × Word) → Memory
  | none => m
  | some e => Memory.writeWord m e.1 e.2

/-- The inserter's write, if there is one, goes to a word index below `nw`. -/
def writesBelow (nw : Word) : Option (Word × Word) → Bool
  | none => false
  | some e => decide (e.1.toNat < nw.toNat)

/-- The inserter's write of the present edge hits a word that the TEST running in `s` reads: what
spec/70_reset_and_hazards.md R164 forbids (log 7). -/
def State.hits (s : State) : Bool :=
  s.busy && s.mode == .test && writesBelow s.nwr s.now.insert

/-- Among the next `n` port records, up to the first reset, the inserter writes a word index below
`nw` (log 7). -/
def writesAhead (nw : Word) : Nat → List Inputs → Bool
  | 0, _ => false
  | _ + 1, [] => false
  | n + 1, x :: rest => !x.rst && (writesBelow nw x.insert || writesAhead nw n rest)

/-- The steps from the WORD step of word `I` to the FIN step, both included
(spec/42_test_aggregator.md R123). -/
def State.stepsFromWord (s : State) : Nat := (s.nwr - (s.i + 1)).toNat * (s.kr.toNat + 1) + 2

/-- The steps that the TEST running in `s` has still to take, its FIN step included (R123). -/
def State.testStepsLeft (s : State) : Nat :=
  match s.st with
  | .idle => 0
  | .round => (s.kr - s.j).toNat + s.stepsFromWord
  | .word => s.stepsFromWord
  | .fin => 1

/-- Somewhere from its accept step to its FIN step, both edges included, the TEST running in `s` has
its array written below `NWR`: against spec/20_memory.md R56 and R164 (log 7). The writes so far are in
`disturbed`, those to come in the port records. -/
def State.unstable (s : State) : Bool := s.disturbed || writesAhead s.nwr s.testStepsLeft s.inputs

/-- `MemRead(I, 8)`, the answer on `MEM_RDATA` (spec/10_state.md R37, spec/20_memory.md R52): the
array's word at `I`. A free value where the memory cannot answer (93 U5; log 2), and for every read of
a TEST during which the array is written, before and after the write (R56, 93 U4; log 7). -/
def State.memRead (s : State) : Word :=
  if s.unstable then Config.freeWord s.draws
  else (Memory.readWord? s.array s.i).getD (Config.freeWord s.draws)

/-! ### The sequencer -/

/-- `nxt(mode, i, j)` against the bounds `kr` and `nwr` (spec/41_mask_builder.md R112). -/
def nxt (mode : Mode) (i j kr nwr : Word) : Seq :=
  match mode with
  | .test => if i = nwr then .fin else if j = kr then .word else .round
  | .mask => if j = kr then .fin else .round

/-- What the accept steps of MASK and TEST share: latch `HR` and `KR`, clear `J`, `M` and `DONE`
(spec/41_mask_builder.md R113, spec/42_test_aggregator.md R122). -/
def State.latch (s : State) (mode : Mode) : State :=
  { s with mode := mode, hr := s.opH, kr := s.opK, j := 0, m := 0, done := false }

/-! ### The edge -/

/-- What the rising edge does besides CORE's own register writes, which `t` already holds: the port
record is used up, and the inserter's write, if there is one, lands in the array (log 5, log 6). -/
def State.tick (t : State) : State :=
  { t with
    inputs := t.inputs.tail
    array := landWrite t.array t.now.insert
    disturbed := t.disturbed || t.hits }

end Sys2Proof.Machine
end

