-- ==== Sys2Proof/Machine/Aggregator.lean ====
section
/-!
DEFINITION. TEST (spec/42_test_aggregator.md): its accept step (R122), the WORD step (R124) and its
FIN step (R126). The ROUND step stands with MASK.
-/

namespace Sys2Proof.Machine

/-- The register writes of TEST's accept step (R122). `nxt` compares with the `NW` and `K` being
latched. No array write has disturbed the new TEST yet (log 7). -/
def State.acceptTest (s : State) : State :=
  { s.latch .test with
    nwr := s.opNW
    i := 0
    v := 0
    st := nxt .test 0 0 s.opK s.opNW
    disturbed := false }

/-- TEST: the accept step (R122); the ROUND, WORD and FIN steps follow it (R121, R123). -/
def execTest (_ct : BitVec 6) (s : State) : Host.Outcome State Fault Refusal := .next s.acceptTest

/-- The WORD step (R124): one read of the array, accumulated into `V`; the mask builder starts again
for the next word. The model's count of free values moves on (log 13). -/
def State.wordStep (s : State) : State :=
  { s with
    v := aggregate s.v s.memRead s.m
    m := 0
    j := 0
    i := s.i + 1
    st := nxt .test (s.i + 1) 0 s.kr s.nwr
    draws := s.draws + 1 }

/-- The FIN step in TEST mode (R126). -/
def State.finTest (s : State) : State := { s.complete (eq64 s.v 0) with st := .idle }

end Sys2Proof.Machine
end

