-- ==== Sys2Proof/Machine/MaskBuilder.lean ====
section
/-!
DEFINITION. MASK (spec/41_mask_builder.md): its accept step (R113), the ROUND step it shares with
TEST (R114) and its FIN step (R116).
-/

namespace Sys2Proof.Machine

/-- The register writes of MASK's accept step (R113). `nxt` compares with the `K` being latched. -/
def State.acceptMask (s : State) : State :=
  { s.latch .mask with i := s.opA, st := nxt .mask s.opA 0 s.opK s.nwr }

/-- MASK: the accept step (R113); the ROUND and FIN steps follow it (R111). -/
def execMask (_ct : BitVec 6) (s : State) : Host.Outcome State Fault Refusal := .next s.acceptMask

/-- The ROUND step (R114): one round of the mask builder for word `I`. -/
def State.roundStep (s : State) : State :=
  { s with
    m := s.m ||| roundTerm (s.position s.hr s.j) s.i
    j := s.j + 1
    st := nxt s.mode s.i (s.j + 1) s.kr s.nwr }

/-- The FIN step in MASK mode (R116). -/
def State.finMask (s : State) : State := { s.complete s.m with st := .idle }

end Sys2Proof.Machine
end

