-- ==== Sys2Proof/Machine/Primitives.lean ====
section
/-!
DEFINITION. The single-step operations (spec/40_primitives.md R91, R93, R95, R97) and the reserved
codes (spec/30_encoding.md R73). Each is the accept step of its command; the edge itself is
`State.tick`. `ST` is IDLE in an accept step and stays so: no meaning here writes it (log 10).
-/

namespace Sys2Proof.Machine

/-- NOP: every register keeps its value (spec/40_primitives.md R97). -/
def execNop (_ct : BitVec 6) (s : State) : Host.Outcome State Fault Refusal := .next s

/-- EQ64: `R <- eq64(A, B)`, `DONE <- 1` (R91). -/
def execEq64 (_ct : BitVec 6) (s : State) : Host.Outcome State Fault Refusal :=
  .next (s.complete (eq64 s.opA s.opB))

/-- SEL64: `R <- select64(CT[0], A, B)`, `DONE <- 1` (R93). -/
def execSel64 (_ign : BitVec 5) (cond : BitVec 1) (s : State) : Host.Outcome State Fault Refusal :=
  .next (s.complete (select64 cond s.opA s.opB))

/-- SHL64: `R <- shl64(A, CT[5:0])`, `DONE <- 1` (R95). -/
def execShl64 (amount : BitVec 6) (s : State) : Host.Outcome State Fault Refusal :=
  .next (s.complete (shl64 s.opA amount))

/-- RSV6: executed exactly as NOP (spec/30_encoding.md R73). -/
def execRsv6 (_ct : BitVec 6) (s : State) : Host.Outcome State Fault Refusal := .next s

/-- RSV7: executed exactly as NOP (spec/30_encoding.md R73). -/
def execRsv7 (_ct : BitVec 6) (s : State) : Host.Outcome State Fault Refusal := .next s

end Sys2Proof.Machine
end

