-- ==== Sys2Proof/Machine/Dispatch.lean ====
section
/-!
DEFINITION. Which meaning each command has (spec/30_encoding.md R76).
-/

namespace Sys2Proof.Machine

-- The accept step of a command, taken with ST = IDLE and rst = 0.
def exec (i : Instr) (s : State) : Host.Outcome State Fault Refusal :=
  match i with
  | .nop ct => Sys2Proof.Machine.execNop ct s
  | .eq64 ct => Sys2Proof.Machine.execEq64 ct s
  | .sel64 ign cond => Sys2Proof.Machine.execSel64 ign cond s
  | .shl64 amount => Sys2Proof.Machine.execShl64 amount s
  | .mask ct => Sys2Proof.Machine.execMask ct s
  | .test ct => Sys2Proof.Machine.execTest ct s
  | .rsv6 ct => Sys2Proof.Machine.execRsv6 ct s
  | .rsv7 ct => Sys2Proof.Machine.execRsv7 ct s

end Sys2Proof.Machine
end

