-- ==== Sys2Proof/Machine/Sequencer.lean ====
section
/-!
DEFINITION. The steps that run no command: the reset step (spec/70_reset_and_hazards.md R160) and the
sequencer's steps while `BUSY` = 1 (spec/30_encoding.md R75, R78).
-/

namespace Sys2Proof.Machine

/-- The reset step (R160): `ST <- IDLE`, `DONE <- 0`, every other register unspecified: a free value
(log 4). A TEST that ran is abandoned. -/
def State.resetStep (s : State) : State :=
  { s with
    st := .idle
    done := false
    r := Config.freeWord s.draws
    mode := if Config.freeBit s.draws then .test else .mask
    hr := ⟨Config.freeWord (s.draws + 1), Config.freeWord (s.draws + 2),
      Config.freeWord (s.draws + 3), Config.freeWord (s.draws + 4)⟩
    kr := Config.freeWord (s.draws + 5)
    nwr := Config.freeWord (s.draws + 6)
    i := Config.freeWord (s.draws + 7)
    j := Config.freeWord (s.draws + 8)
    m := Config.freeWord (s.draws + 9)
    v := Config.freeWord (s.draws + 10)
    disturbed := false
    draws := s.draws + 11 }

/-- The FIN step, by `MODE` (spec/30_encoding.md R75). -/
def State.finStep (s : State) : State :=
  match s.mode with
  | .mask => s.finMask
  | .test => s.finTest

/-- The step taken with `rst` = 0 and `ST` not IDLE (R75). In IDLE no such step is taken; in WORD the
mode is TEST (R75; log 11). -/
def State.busyStep (s : State) : State :=
  match s.st with
  | .idle => s
  | .round => s.roundStep
  | .word => s.wordStep
  | .fin => s.finStep

/-- After a command's meaning answers, the edge passes; a stop stays a stop. -/
def afterExec : Host.Outcome State Fault Refusal → Host.Outcome State Fault Refusal
  | .next t => .next t.tick
  | .fault f => .fault f
  | .refused r => .refused r

/-- `s` with command word `w` on port `CMD` at the coming edge, no reset, and the sequencer in IDLE,
so that the coming step decodes `w` (spec/30_encoding.md R75, R76; log 12). -/
def State.presentCommand (s : State) (w : CmdWord) : State :=
  { s with
    st := .idle
    inputs := { s.now with rst := false, cmd := w } :: s.inputs.tail }

end Sys2Proof.Machine
end

