-- ==== Sys2Proof/Machine/Step.lean ====
section
/-!
DEFINITION. One step of CORE, one rising edge of `clk` (spec/30_encoding.md R75).
-/

namespace Sys2Proof.Machine

/-- One step (spec/30_encoding.md R75, spec/60_exceptions.md R143): `rst` wins over everything; in
IDLE the command on `CMD` is decoded (R76); otherwise the sequencer goes on and `CMD` is not read
(R78). -/
def step (s : State) : Host.Outcome State Fault Refusal :=
  if s.now.rst then .next s.resetStep.tick
  else match s.st with
    | .idle => afterExec (exec (decode s.now.cmd) s)
    | _ => .next s.busyStep.tick

/-- `s` with the instruction whose bits are `w` where the next step takes its command from: port
`CMD` of the coming edge (log 12). -/
def State.withFetchWord (s : State) (_nbits w : Nat) : State :=
  s.presentCommand (BitVec.ofNat 9 w)

end Sys2Proof.Machine
end

