-- ==== Sys2Proof/Machine/Listing.lean ====
section
/-!
DEFINITION. The listing syntax of spec/30_encoding.md R79: lines and directives, what each puts on
the ports, what an assembler refuses, and how a line is printed (log 17). There are no
pseudo-instructions (R80).
-/

namespace Sys2Proof.Machine

/-- One line of a listing (R79). Numbers are as written, not yet checked. -/
inductive Line where
  /-- `NOP` -/
  | nop
  /-- `EQ64 a, b` -/
  | eq64 (a b : Nat)
  /-- `SEL64 c, a, b` -/
  | sel64 (c a b : Nat)
  /-- `SHL64 a, n` -/
  | shl64 (a n : Nat)
  /-- `MASK w` -/
  | mask (w : Nat)
  /-- `TEST` -/
  | test
  /-- `.h h0, h1, h2, h3` -/
  | dirH (h0 h1 h2 h3 : Nat)
  /-- `.k k` -/
  | dirK (k : Nat)
  /-- `.nw n` -/
  | dirNW (n : Nat)
deriving DecidableEq, Repr

/-- Why the assembler refuses a line (R79). -/
inductive AsmError where
  /-- `c` outside 0 and 1 -/
  | condRange
  /-- `n` outside 0..63 -/
  | amountRange
  /-- a number that no 64-bit port can carry (log 17) -/
  | wordRange
deriving DecidableEq, Repr

/-- The configuration ports as the directives so far set them (R79). -/
structure Settings where
  /-- ports `H0..H3` -/
  h : HashResult
  /-- port `K` -/
  k : Word
  /-- port `NW` -/
  nw : Word
deriving DecidableEq, Repr

/-- A number of a listing as a 64-bit port value. -/
def asWord (n : Nat) : Except AsmError Word :=
  if n < 2 ^ 64 then .ok (BitVec.ofNat 64 n) else .error .wordRange

/-- One port record: command `i` in its canonical encoding, operands `a` and `b`, the settings. -/
def record (g : Settings) (i : Instr) (a b : Word) : Inputs :=
  { rst := false, cmd := encode i, a := a, b := b, h := g.h, k := g.k, nw := g.nw, insert := none }

/-- The NOP lines that a listing implies: `n` records with no command (R79). -/
def impliedNops (g : Settings) (n : Nat) : List Inputs := List.replicate n (record g (.nop 0) 0 0)

/-- The settings after a line and the port records it stands for. After MASK and TEST the listing
implies NOP lines until `DONE` = 1: one record less than the operation's steps
(spec/70_reset_and_hazards.md R170), since the accept step has the line's own. -/
def assembleLine (g : Settings) : Line → Except AsmError (Settings × List Inputs)
  | .nop => .ok (g, [record g (.nop 0) 0 0])
  | .eq64 a b => do
    let x ← asWord a
    let y ← asWord b
    return (g, [record g (.eq64 0) x y])
  | .sel64 c a b => do
    let x ← asWord a
    let y ← asWord b
    if c < 2 then return (g, [record g (.sel64 0 (BitVec.ofNat 1 c)) x y]) else .error .condRange
  | .shl64 a n => do
    let x ← asWord a
    if n < 64 then return (g, [record g (.shl64 (BitVec.ofNat 6 n)) x 0]) else .error .amountRange
  | .mask w => do
    let x ← asWord w
    return (g, record g (.mask 0) x 0 :: impliedNops g (g.k.toNat + 1))
  | .test =>
    .ok (g, record g (.test 0) 0 0 :: impliedNops g (g.nw.toNat * (g.k.toNat + 1) + 1))
  | .dirH h0 h1 h2 h3 => do
    let x0 ← asWord h0
    let x1 ← asWord h1
    let x2 ← asWord h2
    let x3 ← asWord h3
    return ({ g with h := ⟨x0, x1, x2, x3⟩ }, [])
  | .dirK k => do
    let x ← asWord k
    return ({ g with k := x }, [])
  | .dirNW n => do
    let x ← asWord n
    return ({ g with nw := x }, [])

/-- The port records of a whole listing, or the first refusal. -/
def assemble (g : Settings) : List Line → Except AsmError (List Inputs)
  | [] => .ok []
  | l :: rest =>
    match assembleLine g l with
    | .error e => .error e
    | .ok (g', records) =>
      match assemble g' rest with
      | .error e => .error e
      | .ok more => .ok (records ++ more)

/-- A line as text, numbers in decimal (R79). -/
def Line.print : Line → String
  | .nop => "NOP"
  | .eq64 a b => "EQ64 " ++ toString a ++ ", " ++ toString b
  | .sel64 c a b => "SEL64 " ++ toString c ++ ", " ++ toString a ++ ", " ++ toString b
  | .shl64 a n => "SHL64 " ++ toString a ++ ", " ++ toString n
  | .mask w => "MASK " ++ toString w
  | .test => "TEST"
  | .dirH h0 h1 h2 h3 =>
    ".h " ++ toString h0 ++ ", " ++ toString h1 ++ ", " ++ toString h2 ++ ", " ++ toString h3
  | .dirK k => ".k " ++ toString k
  | .dirNW n => ".nw " ++ toString n

end Sys2Proof.Machine
end

