-- ==== Sys2Proof/Machine/Trace.lean ====
section
/-!
DEFINITION. The event trace (spec/00_scope.md R14) and runs of several steps. A step's event is a
function of what the step starts from (log 18).
-/

namespace Sys2Proof.Machine

/-- The operation codes that an event may carry (spec/00_scope.md R14). -/
inductive OpName where
  /-- EQ64 -/
  | eq64
  /-- SEL64 -/
  | sel64
  /-- SHL64 -/
  | shl64
  /-- MASK -/
  | mask
  /-- TEST -/
  | test
deriving DecidableEq, Repr

/-- What an observer of the collaborator ports and of the handshake outputs sees at a step (R14). -/
inductive Event where
  /-- a step in IDLE that accepts nothing, and the reset step (spec/70_reset_and_hazards.md R160) -/
  | idle
  /-- a step that executes EQ64, SEL64 or SHL64 -/
  | single (op : OpName)
  /-- the step that accepts MASK or TEST -/
  | start (op : OpName)
  /-- a ROUND step, with the round index on `POS_J` -/
  | pos (j : Word)
  /-- a WORD step, with the word index on `MEM_ADDR` -/
  | read (i : Word)
  /-- a FIN step -/
  | fin
deriving DecidableEq, Repr

/-- The event of the decode step (spec/30_encoding.md R76). -/
def commandEvent : Instr → Event
  | .nop _ => .idle
  | .eq64 _ => .single .eq64
  | .sel64 _ _ => .single .sel64
  | .shl64 _ => .single .shl64
  | .mask _ => .start .mask
  | .test _ => .start .test
  | .rsv6 _ => .idle
  | .rsv7 _ => .idle

/-- The event that the step from `s` emits (spec/00_scope.md R14). -/
def State.event (s : State) : Event :=
  if s.now.rst then .idle
  else match s.st with
    | .idle => commandEvent (decode s.now.cmd)
    | .round => .pos s.j
    | .word => .read s.i
    | .fin => .fin

/-- `n` steps, stopping at the first fault or refusal. -/
def run : Nat → State → Host.Outcome State Fault Refusal
  | 0, s => .next s
  | n + 1, s =>
    match step s with
    | .next t => run n t
    | .fault f => .fault f
    | .refused r => .refused r

/-- The events of the first `n` steps (R14). -/
def trace : Nat → State → List Event
  | 0, _ => []
  | n + 1, s =>
    s.event :: match step s with
      | .next t => trace n t
      | .fault _ => []
      | .refused _ => []

end Sys2Proof.Machine
end

