-- ==== Sys2Proof/Safety.lean ====
section
/-!
DEFINITION. The terms claims about CORE use: the named launch premises
(spec/70_reset_and_hazards.md R172), the step counts and event traces of the operations (R170,
spec/41_mask_builder.md R117, spec/42_test_aggregator.md R128), the invariants (R24, R115, R125), and
which parts of a state are public or live (spec/00_scope.md R9, R10, spec/10_state.md R43).
-/

namespace Sys2Proof.Machine

/-! ### The registers alone -/

/-- The twelve registers of spec/10_state.md R20, without what stands outside CORE and without the
model's own fields: what a rule's "all other registers unchanged" speaks of. -/
structure Regs where
  /-- `ST` -/
  st : Seq
  /-- `DONE` -/
  done : Bool
  /-- `R` -/
  r : Word
  /-- `MODE` -/
  mode : Mode
  /-- `HR[0..3]` -/
  hr : HashResult
  /-- `KR` -/
  kr : Word
  /-- `NWR` -/
  nwr : Word
  /-- `I` -/
  i : Word
  /-- `J` -/
  j : Word
  /-- `M` -/
  m : Word
  /-- `V` -/
  v : Word
deriving DecidableEq, Repr

/-- The registers of a state. -/
def State.regs (s : State) : Regs :=
  { st := s.st, done := s.done, r := s.r, mode := s.mode, hr := s.hr, kr := s.kr, nwr := s.nwr,
    i := s.i, j := s.j, m := s.m, v := s.v }

/-! ### Premises -/

/-- The step from `s` is the accept step of `i`: `ST` = IDLE, `rst` = 0, `i` on `CMD`
(spec/10_state.md R36). -/
def Accepts (s : State) (i : Instr) : Prop :=
  s.st = .idle ∧ s.now.rst = false ∧ decode s.now.cmd = i

/-- `rst` = 0 at the next `n` edges. -/
def NoReset (n : Nat) (s : State) : Prop := ∀ x ∈ s.inputs.take n, x.rst = false

/-- `StartsIdle` (R172): `ST` = IDLE, and `rst` = 0 throughout the next `n` edges. -/
def StartsIdle (n : Nat) (s : State) : Prop := s.st = .idle ∧ NoReset n s

/-- `ArrayStable` (R172, R164): at the next `n` edges the inserter writes no word below `nw`. -/
def ArrayStable (n : Nat) (nw : Word) (s : State) : Prop :=
  ∀ x ∈ s.inputs.take n, ∀ e, x.insert = some e → nw.toNat ≤ e.1.toNat

/-- `ArrayAnswers` (R172, R168): the memory answers every index in `[0, nw)`. -/
def ArrayAnswers (s : State) (nw : Word) : Prop :=
  ∀ i : Word, i.toNat < nw.toNat → (Memory.readWord? s.array i).isSome = true

/-- `word(i)` of the array (spec/20_memory.md R52). Where the memory does not answer the value here
means nothing: a claim that uses it has `ArrayAnswers` as a premise. -/
def State.word (s : State) (i : Word) : Word := (Memory.readWord? s.array i).getD 0

/-- `PositionInRange` (R172): every position asked for is below `m`, and `nw = ceil(m/64)`. -/
def PositionInRange (position : HashResult → Word → Word) (h : HashResult) (k nw : Word) (m : Nat) :
    Prop :=
  (∀ j < k.toNat, (position h (BitVec.ofNat 64 j)).toNat < m) ∧ nw.toNat = (m + 63) / 64

/-- `RoundsPositive` (R172): the source's stated domain, `K >= 1` and `NW >= 1`. -/
def RoundsPositive (k nw : Word) : Prop := 1 ≤ k.toNat ∧ 1 ≤ nw.toNat

/-- Global bit `p` of the array: bit `p mod 64` of word `p div 64` (spec/20_memory.md R53). -/
def arrayBit (word : Word → Word) (p : Word) : Bool := (word (posWord p)).getLsbD (posBit p).toNat

/-- The reference membership test: all `k` claimed bits are 1 (spec/42_test_aggregator.md R127). -/
def ReferenceTest (position : HashResult → Word → Word) (h : HashResult) (k : Word)
    (word : Word → Word) : Prop :=
  ∀ j < k.toNat, arrayBit word (position h (BitVec.ofNat 64 j)) = true

/-! ### Step counts and traces -/

/-- Steps of MASK (R170). -/
def maskSteps (k : Word) : Nat := k.toNat + 2

/-- Steps of TEST (R170). -/
def testSteps (k nw : Word) : Nat := nw.toNat * (k.toNat + 1) + 2

/-- `Pos(0), ..., Pos(k-1)`. -/
def roundEvents (k : Nat) : List Event := (List.range k).map fun j => .pos (BitVec.ofNat 64 j)

/-- The trace of MASK (spec/41_mask_builder.md R117). -/
def maskTrace (k : Word) : List Event := .start .mask :: (roundEvents k.toNat ++ [.fin])

/-- The trace of TEST (spec/42_test_aggregator.md R128). -/
def testTrace (k nw : Word) : List Event :=
  .start .test ::
    ((List.range nw.toNat).flatMap (fun i => roundEvents k.toNat ++ [.read (BitVec.ofNat 64 i)])
      ++ [.fin])

/-- The word index a `Read` event carries. -/
def Event.readIndex? : Event → Option Word
  | .read i => some i
  | _ => none

/-! ### Invariants -/

/-- Where the sequencer can be (spec/10_state.md R24, spec/30_encoding.md R75,
spec/41_mask_builder.md R112): `DONE` = 1 only in IDLE; WORD only in TEST mode; the counters are
below or at their bounds, so they never wrap. -/
def ControlInv (s : State) : Prop :=
  (s.done = true → s.st = .idle) ∧
  (s.st = .round → s.j.toNat < s.kr.toNat ∧ (s.mode = .test → s.i.toNat < s.nwr.toNat)) ∧
  (s.st = .word → s.mode = .test ∧ s.j = s.kr ∧ s.i.toNat < s.nwr.toNat) ∧
  (s.st = .fin → (s.mode = .mask → s.j = s.kr) ∧ (s.mode = .test → s.i = s.nwr))

/-- `M` is the accumulator of `buildMask` after `J` rounds (spec/41_mask_builder.md R115). -/
def MaskInv (s : State) : Prop :=
  s.st ≠ .idle → s.m = maskAcc s.position s.hr s.i s.j.toNat

/-- `V` is the accumulator of `testResult` after `I` words, where the array is not written under the
TEST and the memory answers (spec/42_test_aggregator.md R125; premises R172). -/
def AggInv (s : State) : Prop :=
  s.st ≠ .idle → s.mode = .test → s.unstable = false → ArrayAnswers s s.nwr →
    s.v = aggAcc s.position s.hr s.kr s.word s.i.toNat

/-- The array is in canonical form (log 1). -/
def MemoryInv (s : State) : Prop := Memory.wf s.array = true

/-! ### Public data, live data, sampled ports -/

/-- Two port records agree on what is public: `rst`, the operation code, and `K` and `NW` where the
operation latches them (spec/00_scope.md R9, R10). -/
def PublicRecord (x y : Inputs) : Prop :=
  x.rst = y.rst ∧
  (decode x.cmd).opcode = (decode y.cmd).opcode ∧
  ((decode x.cmd).opcode = 0b100 ∨ (decode x.cmd).opcode = 0b101 → x.k = y.k) ∧
  ((decode x.cmd).opcode = 0b101 → x.nw = y.nw)

/-- Two states agree on public data: the sequencer's position, the round count, the word index and
word count where a TEST runs, and the public part of every coming port record. Hash results,
accumulators, `R`, the array, the positions, `A` and `B` are free to differ. -/
def PublicEq (s t : State) : Prop :=
  s.st = t.st ∧
  (s.st ≠ .idle → s.mode = t.mode ∧ s.j = t.j ∧ s.kr = t.kr) ∧
  (s.st ≠ .idle → s.mode = .test ∨ s.st = .word → s.i = t.i ∧ s.nwr = t.nwr) ∧
  List.Forall₂ PublicRecord s.inputs t.inputs

/-- Two states agree on every register that a later step reads before writing it, and on everything
outside CORE (spec/10_state.md R43). `R` and `DONE` may differ, and in IDLE every hidden register. -/
def LiveEq (s t : State) : Prop :=
  s.st = t.st ∧ s.array = t.array ∧ s.positions = t.positions ∧ s.inputs = t.inputs ∧
  s.disturbed = t.disturbed ∧ s.draws = t.draws ∧
  (s.st ≠ .idle →
    s.mode = t.mode ∧ s.hr = t.hr ∧ s.kr = t.kr ∧ s.i = t.i ∧ s.j = t.j ∧ s.m = t.m) ∧
  (s.st ≠ .idle → s.mode = .test ∨ s.st = .word → s.nwr = t.nwr ∧ s.v = t.v)

/-- Two port records agree on everything their commands sample (spec/30_encoding.md R77). -/
def SampleAgree (x y : Inputs) : Prop :=
  match decode x.cmd, decode y.cmd with
  | .eq64 _, .eq64 _ => x.a = y.a ∧ x.b = y.b
  | .sel64 _ c, .sel64 _ d => c = d ∧ x.a = y.a ∧ x.b = y.b
  | .shl64 n, .shl64 m => n = m ∧ x.a = y.a
  | .mask _, .mask _ => x.a = y.a ∧ x.h = y.h ∧ x.k = y.k
  | .test _, .test _ => x.h = y.h ∧ x.k = y.k ∧ x.nw = y.nw
  | i, i' => commandEvent i = .idle ∧ commandEvent i' = .idle

/-! ### How defects show (spec/60_exceptions.md R153) -/

/-- What can be seen of an implementation of CORE from outside, as functions: its three primitives,
its test over a position function, a hash result, `k`, `nw` and an array, and the events of the
operation that it accepts. Nothing else is reported at run time (R153). -/
structure Implementation where
  /-- `eq64` -/
  eq : Word → Word → Word
  /-- `select64` -/
  select : BitVec 1 → Word → Word → Word
  /-- `shl64` -/
  shl : Word → BitVec 6 → Word
  /-- `constantTimeTest`: 1 = possibly present, 0 = definitely absent -/
  test : (HashResult → Word → Word) → HashResult → Word → Word → (Word → Word) → Word
  /-- the events of a TEST, from the state that accepts it -/
  testTrace : State → List Event

/-- CORE itself, as this model has it. -/
def coreImplementation : Implementation :=
  { eq := eq64, select := select64, shl := shl64, test := testResult
    testTrace := fun s => trace (testSteps s.now.k s.now.nw) s }

/-- The primitive laws of the source's section 8 (R153; spec/40_primitives.md R90, R92, R94). -/
def Implementation.PrimitiveLaws (d : Implementation) : Prop :=
  (∀ x y, d.eq x y = if x = y then 1 else 0) ∧
  (∀ x y, d.select 1 x y = x ∧ d.select 0 x y = y) ∧
  (∀ x amount, d.shl x amount = x <<< amount.toNat)

/-- Agreement with the reference test, within the collaborator's range contract (R153;
spec/42_test_aggregator.md R127). -/
def Implementation.AgreesWithReference (d : Implementation) : Prop :=
  ∀ position h k nw word m, PositionInRange position h k nw m →
    (d.test position h k nw word = 1 ∧ ReferenceTest position h k word) ∨
    (d.test position h k nw word = 0 ∧ ¬ ReferenceTest position h k word)

/-- No false negatives (R153; spec/42_test_aggregator.md R129). -/
def Implementation.NoFalseNegatives (d : Implementation) : Prop :=
  ∀ position h k nw word, ReferenceTest position h k word → d.test position h k nw word = 1

/-- The state accepts a TEST and no reset comes before its end. -/
def StartsTest (s : State) : Prop :=
  (∃ ct, Accepts s (.test ct)) ∧ NoReset (testSteps s.now.k s.now.nw) s

/-- The full scan: word indices `0` to `NW-1`, each read once, in order (R153, R57). -/
def Implementation.FullScan (d : Implementation) : Prop :=
  ∀ s, StartsTest s → (d.testTrace s).filterMap Event.readIndex? =
    (List.range s.now.nw.toNat).map (BitVec.ofNat 64)

/-- Two TESTs with the same `K` and `NW` have the same trace, whatever the elements, the arrays and
the outcomes (R153; spec/42_test_aggregator.md R128). -/
def Implementation.TraceIsOutcomeIndependent (d : Implementation) : Prop :=
  ∀ s t, StartsTest s → StartsTest t → s.now.k = t.now.k → s.now.nw = t.now.nw →
    d.testTrace s = d.testTrace t

/-- The properties that R153 names, through which alone a wrong implementation shows. They do not fix
the result on positions out of range, nor the events of a TEST besides its reads. -/
structure Implementation.ShowsNoDefect (d : Implementation) : Prop where
  /-- R90, R92, R94 -/
  primitives : d.PrimitiveLaws
  /-- R127 -/
  reference : d.AgreesWithReference
  /-- R129 -/
  noFalseNegatives : d.NoFalseNegatives
  /-- R57, R128 -/
  fullScan : d.FullScan
  /-- R128 -/
  traceIsOutcomeIndependent : d.TraceIsOutcomeIndependent

end Sys2Proof.Machine
end

