-- ==== Sys2Proof/Certificates/Slice0/Obligations.lean ====
section
/-!
DEFINITION. The statements about CORE that are to be proved, rule by rule of spec/. A statement with
hypotheses has a witness in Sys2Proof/Tests/Slice0.lean.
-/

open Sys2Proof Sys2Proof.Machine

/-! ### The units (spec/40_primitives.md, 41_mask_builder.md, 42_test_aggregator.md) -/

/-- R90: the EQ unit gives 1 exactly when the operands are equal, is symmetric, and is the complement
of the OR of the bits of `d`; the inner value has its top bit set exactly when `d` is 0. The spec marks
the symmetry and the OR form `[derived]`, its own inference. -/
def Obligations.EqUnitDecidesEquality : Prop :=
  ∀ x y : Word,
    eq64 x y = (if x = y then 1 else 0) ∧
    eq64 x y = eq64 y x ∧
    ((~~~(x ^^^ y)) &&& ((x ^^^ y) - 1)).getLsbD 63 = decide (x ^^^ y = 0) ∧
    (eq64 x y = 1 ↔ ∀ b < 64, (x ^^^ y).getLsbD b = false)

/-- R92: the SEL unit returns `x` for `cond` = 1 and `y` for `cond` = 0, bit by bit; its mask is
all-ones or 0. -/
def Obligations.SelUnitReturnsChosenOperand : Prop :=
  ∀ (x y : Word),
    select64 1 x y = x ∧ select64 0 x y = y ∧
    (∀ (c : BitVec 1) (b : Nat),
      (select64 c x y).getLsbD b = if c = 1 then x.getLsbD b else y.getLsbD b)

/-- R94: the SHL unit is the standard left shift modulo 2^64; after `n` stages the remaining budget is
`amount` modulo `2^(6-n)`, and the stage of size `2^(5-n)` applies exactly when that bit of `amount`
is 1. The spec marks the invariant of the stages `[derived]`, its own inference. -/
def Obligations.ShlUnitIsLeftShift : Prop :=
  ∀ (x : Word) (amount : BitVec 6),
    shl64 x amount = x <<< amount.toNat ∧
    (shl64 x amount).toNat = x.toNat * 2 ^ amount.toNat % 2 ^ 64 ∧
    (∀ n ≤ 6, (shlAfter n x amount).2.toNat = amount.toNat % 2 ^ (6 - n)) ∧
    (∀ n < 6,
      eq64 ((shlAfter n x amount).2 &&& ((1 : Word) <<< (5 - n))) ((1 : Word) <<< (5 - n)) =
        if amount.getLsbD (5 - n) then 1 else 0)

/-- R53: the position split is the division by 64 with its remainder. -/
def Obligations.PositionSplitIsDivMod : Prop :=
  ∀ p : Word, (posWord p).toNat = p.toNat / 64 ∧ (posBit p).toNat = p.toNat % 64

/-- R110: bit `b` of the mask of word `w` is 1 exactly when some round's position is bit `b` of word
`w`; so a word index of 2^58 or more has mask 0. The spec marks this law
`[derived]`, its own inference from the algorithm; the first clause is also the source's contract. -/
def Obligations.BuildMaskMarksClaimedBits : Prop :=
  ∀ (position : HashResult → Word → Word) (h : HashResult) (k w : Word),
    (∀ b < 64, (buildMask position h k w).getLsbD b = true ↔
      ∃ j < k.toNat,
        posWord (position h (BitVec.ofNat 64 j)) = w ∧
        (posBit (position h (BitVec.ofNat 64 j))).toNat = b) ∧
    (2 ^ 58 ≤ w.toNat → buildMask position h k w = 0)

/-- R127: the result is 1 exactly when every claimed bit in range is 1 in the array, else 0; with the
collaborator's range contract it agrees with the reference test. The spec marks the law `[derived]`,
and "the standard Bloom-filter membership test" as "from general knowledge, not in source". -/
def Obligations.TestResultAgreesWithReference : Prop :=
  ∀ (position : HashResult → Word → Word) (h : HashResult) (k nw : Word) (word : Word → Word),
    (testResult position h k nw word = 1 ↔
      ∀ j < k.toNat,
        nw.toNat ≤ (posWord (position h (BitVec.ofNat 64 j))).toNat ∨
        arrayBit word (position h (BitVec.ofNat 64 j)) = true) ∧
    (testResult position h k nw word = 1 ∨ testResult position h k nw word = 0) ∧
    (∀ m : Nat, PositionInRange position h k nw m →
      (testResult position h k nw word = 1 ↔ ReferenceTest position h k word))

/-- R130: a position whose word index is out of range adds nothing to any mask, and so can only move
the result toward 1; the spec marks it `[derived]`, its own inference. -/
def Obligations.OutOfRangePositionOnlyMovesTowardOne : Prop :=
  ∀ (position other : HashResult → Word → Word) (h : HashResult) (k nw : Word) (word : Word → Word),
    (∀ p w : Word, nw.toNat ≤ (posWord p).toNat → w.toNat < nw.toNat → roundTerm p w = 0) ∧
    ((∀ j < k.toNat,
        position h (BitVec.ofNat 64 j) = other h (BitVec.ofNat 64 j) ∨
        nw.toNat ≤ (posWord (position h (BitVec.ofNat 64 j))).toNat) →
      testResult other h k nw word = 1 → testResult position h k nw word = 1)

/-! ### The commands: result, frame, event, completion -/

/-- R91: EQ64 completes in its own step: `R` is 1 or 0 as `A` equals `B` or not, `DONE` = 1, and no
other register, and nothing outside CORE, changes by the command. -/
def Obligations.Eq64WritesComparison : Prop :=
  ∀ (s : State) (ct : BitVec 6), Accepts s (.eq64 ct) →
    exec (.eq64 ct) s =
      .next { s with r := if s.now.a = s.now.b then 1 else 0, done := true } ∧
    (∃ t, step s = .next t ∧
      t.regs = { s.regs with r := if s.now.a = s.now.b then 1 else 0, done := true }) ∧
    s.event = .single .eq64

/-- R93: SEL64 completes in its own step: `R` is `A` if `CT[0]` = 1, else `B`; `DONE` = 1; no other
register, and nothing outside CORE, changes by the command. -/
def Obligations.Sel64WritesChosenOperand : Prop :=
  ∀ (s : State) (ign : BitVec 5) (cond : BitVec 1), Accepts s (.sel64 ign cond) →
    exec (.sel64 ign cond) s =
      .next { s with r := if cond = 1 then s.now.a else s.now.b, done := true } ∧
    (∃ t, step s = .next t ∧
      t.regs = { s.regs with r := if cond = 1 then s.now.a else s.now.b, done := true }) ∧
    s.event = .single .sel64

/-- R95: SHL64 completes in its own step: `R` is `A` shifted left by `CT[5:0]`; `DONE` = 1; no other
register, and nothing outside CORE, changes by the command. -/
def Obligations.Shl64WritesShiftedOperand : Prop :=
  ∀ (s : State) (amount : BitVec 6), Accepts s (.shl64 amount) →
    exec (.shl64 amount) s = .next { s with r := s.now.a <<< amount.toNat, done := true } ∧
    (∃ t, step s = .next t ∧
      t.regs = { s.regs with r := s.now.a <<< amount.toNat, done := true }) ∧
    s.event = .single .shl64

/-- R97, R73: NOP, RSV6 and RSV7 change nothing; their event is `Idle`; and the ignored bits of every
command have no effect. -/
def Obligations.NopAndReservedChangeNothing : Prop :=
  ∀ (s : State) (ct : BitVec 6),
    (Accepts s (.nop ct) →
      exec (.nop ct) s = .next s ∧ (∃ t, step s = .next t ∧ t.regs = s.regs) ∧ s.event = .idle) ∧
    (Accepts s (.rsv6 ct) →
      exec (.rsv6 ct) s = .next s ∧ (∃ t, step s = .next t ∧ t.regs = s.regs) ∧ s.event = .idle) ∧
    (Accepts s (.rsv7 ct) →
      exec (.rsv7 ct) s = .next s ∧ (∃ t, step s = .next t ∧ t.regs = s.regs) ∧ s.event = .idle) ∧
    (∀ i : Instr, exec i s = exec i.canonical s ∧ commandEvent i = commandEvent i.canonical)

/-- R113: the accept step of MASK. -/
def Obligations.MaskAcceptLatchesOperands : Prop :=
  ∀ (s : State) (ct : BitVec 6), Accepts s (.mask ct) →
    exec (.mask ct) s =
      .next { s with
        mode := .mask, hr := s.now.h, kr := s.now.k, i := s.now.a, j := 0, m := 0, done := false,
        st := if s.now.k = 0 then .fin else .round } ∧
    (∃ t, step s = .next t ∧ t.regs =
      { s.regs with
        mode := .mask, hr := s.now.h, kr := s.now.k, i := s.now.a, j := 0, m := 0, done := false,
        st := if s.now.k = 0 then .fin else .round }) ∧
    s.event = .start .mask

/-- R122: the accept step of TEST; nothing outside CORE changes by the command. -/
def Obligations.TestAcceptLatchesOperands : Prop :=
  ∀ (s : State) (ct : BitVec 6), Accepts s (.test ct) →
    (∃ t, exec (.test ct) s = .next t ∧
      t.array = s.array ∧ t.positions = s.positions ∧ t.inputs = s.inputs ∧
      t.regs =
        { s.regs with
          mode := .test, hr := s.now.h, kr := s.now.k, nwr := s.now.nw, i := 0, j := 0, m := 0,
          v := 0, done := false,
          st := if s.now.nw = 0 then .fin else if s.now.k = 0 then .word else .round }) ∧
    (∃ t u, exec (.test ct) s = .next t ∧ step s = .next u ∧ u.regs = t.regs) ∧
    s.event = .start .test

/-! ### The sequencer's steps -/

/-- R114: the ROUND step, for MASK and TEST alike. -/
def Obligations.RoundStepAccumulatesOneRound : Prop :=
  ∀ s : State, s.st = .round → s.now.rst = false →
    (∃ t, step s = .next t ∧ t.regs =
      { s.regs with
        m := s.m ||| (if (s.position s.hr s.j).toNat / 64 = s.i.toNat
          then (1 : Word) <<< ((s.position s.hr s.j).toNat % 64) else 0)
        j := s.j + 1
        st := nxt s.mode s.i (s.j + 1) s.kr s.nwr }) ∧
    s.event = .pos s.j

/-- R124: the WORD step, where the memory answers with `w` and the array is not written under the
TEST (`ArrayAnswers` of R172 at this step, and `ArrayStable` over the whole operation: `unstable` is
the model's, log 7). -/
def Obligations.WordStepAccumulatesOneWord : Prop :=
  ∀ (s : State) (w : Word), s.st = .word → s.mode = .test → s.now.rst = false →
    s.unstable = false → Memory.readWord? s.array s.i = some w →
    (∃ t, step s = .next t ∧ t.regs =
      { s.regs with
        v := s.v ||| ((~~~w) &&& s.m), m := 0, j := 0, i := s.i + 1,
        st := if s.i + 1 = s.nwr then .fin else if s.kr = 0 then .word else .round }) ∧
    s.event = .read s.i

/-- Where the memory does not answer, or the array is written under the TEST, at whatever edge from
its accept step to its FIN step, the WORD step goes on
in the same way with a free value for the word read, a fresh one at each such step: the model's choice
(log 2, log 7, log 13). It holds for every value of the free value. -/
def Obligations.UnansweredReadIsFreeValue : Prop :=
  ∀ s : State, s.st = .word → s.now.rst = false →
    (s.unstable = true ∨ Memory.readWord? s.array s.i = none) →
    (∃ t, step s = .next t ∧ t.draws = s.draws + 1 ∧ t.regs =
      { s.regs with
        v := s.v ||| ((~~~(Config.freeWord s.draws)) &&& s.m), m := 0, j := 0, i := s.i + 1,
        st := if s.i + 1 = s.nwr then .fin else if s.kr = 0 then .word else .round }) ∧
    s.event = .read s.i

/-- R116: the FIN step in MASK mode. -/
def Obligations.FinStepOfMaskWritesMask : Prop :=
  ∀ s : State, s.st = .fin → s.mode = .mask → s.now.rst = false →
    (∃ t, step s = .next t ∧ t.regs = { s.regs with r := s.m, done := true, st := .idle }) ∧
    s.event = .fin

/-- R126: the FIN step in TEST mode. -/
def Obligations.FinStepOfTestWritesZeroDetect : Prop :=
  ∀ s : State, s.st = .fin → s.mode = .test → s.now.rst = false →
    (∃ t, step s = .next t ∧
      t.regs = { s.regs with r := if s.v = 0 then 1 else 0, done := true, st := .idle }) ∧
    s.event = .fin

/-- R160, R42: a step with `rst` = 1, whatever the state and the other inputs, leaves IDLE with `DONE` = 0
and no request, abandons a running operation, and emits `Idle`. The other registers are free values
(log 4), of which the statement says nothing. -/
def Obligations.ResetStepWinsOverEverything : Prop :=
  ∀ s : State, s.now.rst = true →
    ∃ t, step s = .next t ∧ t.st = .idle ∧ t.done = false ∧ t.busy = false ∧ t.posReq = false ∧
      t.memReq = false ∧ t.outputs.posH = ⟨0, 0, 0, 0⟩ ∧ t.outputs.posJ = 0 ∧
      t.outputs.memAddr = 0 ∧ t.inputs = s.inputs.tail ∧ s.event = .idle

/-- R42: the values reset leaves, and the gated outputs. -/
def Obligations.ResetStateIsIdleNotDone : Prop :=
  State.reset.st = .idle ∧ State.reset.done = false ∧
  State.reset.outputs.busy = false ∧ State.reset.outputs.posReq = false ∧
  State.reset.outputs.memReq = false ∧ State.reset.outputs.posH = ⟨0, 0, 0, 0⟩ ∧
  State.reset.outputs.posJ = 0 ∧ State.reset.outputs.memAddr = 0

/-! ### The step as a whole -/

/-- R140: every step and every command answers a next state; there is no fault to answer. -/
def Obligations.EveryStepAnswersNextState : Prop :=
  (∀ s : State, ∃ t, step s = .next t) ∧ (∀ (i : Instr) (s : State), ∃ t, exec i s = .next t) ∧
  (∀ _ : Fault, False)

/-- R75, R76: in IDLE without reset the step is `exec` of the decoded command, and then the edge: the
port record is used up and the inserter's write lands (log 5, log 6), with the mark it leaves on a
running TEST (log 7). The command runs whatever its ignored bits are. -/
def Obligations.StepRunsDecodedCommand : Prop :=
  ∀ (s t : State) (i : Instr), Accepts s i → exec i s = .next t →
    step s = .next t.tick ∧
    t.tick =
      { t with
        inputs := t.inputs.tail
        array := landWrite t.array t.now.insert
        disturbed := t.disturbed || t.hits }

/-- R77: a step depends on nothing of the port record but `rst` and, where a command is accepted,
what that command samples; two commands that start nothing are alike. -/
def Obligations.StepReadsOnlySampledPorts : Prop :=
  ∀ (s : State) (x y : Inputs) (rest : List Inputs),
    x.rst = y.rst → x.insert = y.insert →
    (x.rst = true ∨ s.st ≠ .idle ∨ SampleAgree x y) →
    step { s with inputs := x :: rest } = step { s with inputs := y :: rest }

/-- R78: while an operation runs, the command and operand ports are not read: two records that carry
anything on them give the same step, and leave the same records to come. -/
def Obligations.BusyStepIgnoresCommandPorts : Prop :=
  ∀ (s : State) (x y : Inputs) (rest : List Inputs),
    s.busy = true → x.rst = false → y.rst = false → x.insert = y.insert →
    step { s with inputs := x :: rest } = step { s with inputs := y :: rest } ∧
    (∀ t, step { s with inputs := x :: rest } = .next t → t.inputs = rest)

/-- R21, R22: what each step does to `R` and `DONE`, told from its event. -/
def Obligations.ResultAndDoneChangeOnlyAtCompletion : Prop :=
  ∀ s t : State, s.now.rst = false → step s = .next t →
    (t.done = match s.event with
      | .single _ => true
      | .fin => true
      | .start _ => false
      | .idle => s.done
      | .pos _ => s.done
      | .read _ => s.done) ∧
    (s.event = .idle ∨ (∃ op, s.event = .start op) ∨ (∃ j, s.event = .pos j) ∨
      (∃ i, s.event = .read i) → t.r = s.r)

/-- R51: CORE writes no word of the array: a command leaves it as it is, and a step changes it only
by the inserter's write of that edge; every other word, and every cell outside the word written, reads
as before. That the inserter writes one whole word at an edge, which reads as written from the next
step on, is the model's choice (log 6), and so are the cells, eight for a word (log 1). -/
def Obligations.CoreNeverWritesTheArray : Prop :=
  (∀ (i : Instr) (s t : State), exec i s = .next t →
    t.array = s.array ∧ t.positions = s.positions ∧ t.inputs = s.inputs) ∧
  (∀ s t : State, step s = .next t → s.now.insert = none → t.array = s.array) ∧
  (∀ (s t : State) (idx value : Word), step s = .next t → s.now.insert = some (idx, value) →
    Memory.readWord? t.array idx = some value ∧
    (∀ i, i ≠ idx → Memory.readWord? t.array i = Memory.readWord? s.array i) ∧
    (∀ a : Nat, a / 8 ≠ idx.toNat → Memory.read? t.array a = Memory.read? s.array a))

/-- R164, 93 U4: an inserter's write below `NWR` marks the TEST that runs on after the edge: the
model's own field (log 7). -/
def Obligations.ForbiddenWriteMarksRunningTest : Prop :=
  ∀ (s t : State) (idx value : Word), s.now.insert = some (idx, value) → step s = .next t →
    t.st ≠ .idle → t.mode = .test → idx.toNat < t.nwr.toNat → t.disturbed = true

/-- R56, 93 U4: if the inserter writes a word below `NW` at any edge from the accept step of a TEST to
its FIN step, both included, then every read of that TEST, before the write and after it, is a free
value, a fresh one each time: the model's form of "an unconstrained draw" (log 7, log 13). -/
def Obligations.ForbiddenWriteFreesEveryRead : Prop :=
  ∀ (s : State) (ct : BitVec 6), Accepts s (.test ct) → NoReset (testSteps s.now.k s.now.nw) s →
    (∃ x ∈ s.inputs.take (testSteps s.now.k s.now.nw), writesBelow s.now.nw x.insert = true) →
    ∀ n u, 0 < n → n < testSteps s.now.k s.now.nw → run n s = .next u → u.st = .word →
      u.memRead = Config.freeWord u.draws ∧
      (∀ t, step u = .next t → t.draws = u.draws + 1)

/-- R35, R23: the output ports as functions of the registers. -/
def Obligations.OutputsFollowRegisters : Prop :=
  ∀ s : State,
    s.outputs.r = s.r ∧ s.outputs.done = s.done ∧
    (s.outputs.busy = false ↔ s.st = .idle) ∧
    (s.outputs.posReq = true ↔ s.st = .round) ∧ (s.outputs.memReq = true ↔ s.st = .word) ∧
    (s.st = .round → s.outputs.posH = s.hr ∧ s.outputs.posJ = s.j) ∧
    (s.st ≠ .round → s.outputs.posH = ⟨0, 0, 0, 0⟩ ∧ s.outputs.posJ = 0) ∧
    (s.st = .word → s.outputs.memAddr = s.i) ∧ (s.st ≠ .word → s.outputs.memAddr = 0)

/-! ### Encoding -/

/-- R70 to R73: decoding and encoding are inverse to each other on all instructions and all 512
words; the canonical words are those of the well-formed instructions. -/
def Obligations.DecodeAndEncodeAreInverse : Prop :=
  (∀ i : Instr, decode (encode i) = i) ∧ (∀ w : CmdWord, encode (decode w) = w) ∧
  (∀ i : Instr, i.WellFormed ↔ i.canonical = i) ∧
  (∀ i : Instr, encode i.canonical &&& 0x1C0 = encode i &&& 0x1C0)

/-- R72: `(CMD & mask) == match` selects the row, with the operands R71 gives. -/
def Obligations.DecodeSelectsTableRow : Prop :=
  ∀ w : CmdWord,
    (w &&& 0x1C0 = 0x000 → decode w = .nop (w.extractLsb' 0 6)) ∧
    (w &&& 0x1C0 = 0x040 → decode w = .eq64 (w.extractLsb' 0 6)) ∧
    (w &&& 0x1C0 = 0x080 → decode w = .sel64 (w.extractLsb' 1 5) (w.extractLsb' 0 1)) ∧
    (w &&& 0x1C0 = 0x0C0 → decode w = .shl64 (w.extractLsb' 0 6)) ∧
    (w &&& 0x1C0 = 0x100 → decode w = .mask (w.extractLsb' 0 6)) ∧
    (w &&& 0x1C0 = 0x140 → decode w = .test (w.extractLsb' 0 6)) ∧
    (w &&& 0x1C0 = 0x180 → decode w = .rsv6 (w.extractLsb' 0 6)) ∧
    (w &&& 0x1C0 = 0x1C0 → decode w = .rsv7 (w.extractLsb' 0 6)) ∧
    (w &&& 0x1C0 = 0x000 ∨ w &&& 0x1C0 = 0x040 ∨ w &&& 0x1C0 = 0x080 ∨ w &&& 0x1C0 = 0x0C0 ∨
      w &&& 0x1C0 = 0x100 ∨ w &&& 0x1C0 = 0x140 ∨ w &&& 0x1C0 = 0x180 ∨ w &&& 0x1C0 = 0x1C0)

/-- Words written out from R72 and R79: one of each family, canonical and not. -/
def Obligations.WordsFromTheTableDecode : Prop :=
  decode 0b000000000 = .nop 0 ∧ decode 0b001111111 = .eq64 0b111111 ∧
  decode 0b010000001 = .sel64 0 1 ∧ decode 0b010111110 = .sel64 0b11111 0 ∧
  decode 0b011100101 = .shl64 37 ∧ decode 0b100000000 = .mask 0 ∧
  decode 0b101000000 = .test 0 ∧ decode 0b110000000 = .rsv6 0 ∧ decode 0b111111111 = .rsv7 0b111111

/-- R79: what a listing's line puts on the ports, what the directives set for the later lines, and
what the assembler refuses. The number of NOP records implied after MASK and TEST, and the 0 and the
settings that `record` leaves on ports a line does not drive (the NOP and EQ64 lines), are the model's
choice (log 17). -/
def Obligations.ListingAssemblesToCommands : Prop :=
  ∀ (g : Settings) (c n : Nat) (a b : Word),
    assembleLine g .nop = .ok (g, [record g (.nop 0) 0 0]) ∧
    assembleLine g (.eq64 a.toNat b.toNat) = .ok (g, [record g (.eq64 0) a b]) ∧
    (c < 2 → ∃ x, assembleLine g (.sel64 c a.toNat b.toNat) = .ok (g, [x]) ∧ x.a = a ∧ x.b = b ∧
      x.cmd.toNat = 0x080 + c) ∧
    (2 ≤ c → assembleLine g (.sel64 c a.toNat b.toNat) = .error .condRange) ∧
    (n < 64 → ∃ x, assembleLine g (.shl64 a.toNat n) = .ok (g, [x]) ∧ x.a = a ∧
      x.cmd.toNat = 0x0C0 + n) ∧
    (64 ≤ n → assembleLine g (.shl64 a.toNat n) = .error .amountRange) ∧
    (∃ x more, assembleLine g (.mask a.toNat) = .ok (g, x :: more) ∧ x.cmd = 0x100 ∧ x.a = a ∧
      x.h = g.h ∧ x.k = g.k ∧ more.length = g.k.toNat + 1 ∧ ∀ y ∈ more, decode y.cmd = .nop 0) ∧
    (∃ x more, assembleLine g .test = .ok (g, x :: more) ∧ x.cmd = 0x140 ∧ x.h = g.h ∧ x.k = g.k ∧
      x.nw = g.nw ∧ more.length = g.nw.toNat * (g.k.toNat + 1) + 1 ∧
      ∀ y ∈ more, decode y.cmd = .nop 0) ∧
    (∀ (h : HashResult) (rest : List Line),
      assemble g (.dirH h.h0.toNat h.h1.toNat h.h2.toNat h.h3.toNat :: rest) =
        assemble { g with h := h } rest ∧
      assemble g (.dirK a.toNat :: rest) = assemble { g with k := a } rest ∧
      assemble g (.dirNW a.toNat :: rest) = assemble { g with nw := a } rest)

/-! ### Invariants of every step -/

/-- R24, R75, R112: the sequencer stays where it can be: `DONE` only in IDLE, WORD only in TEST mode,
the counters at or below their bounds. -/
def Obligations.StepKeepsControlState : Prop :=
  ∀ s t : State, ControlInv s → step s = .next t → ControlInv t

/-- R115: `M` is the mask accumulator of word `I` after `J` rounds whenever an operation runs, and
the whole mask when `J = KR`; the spec marks it `[derived]`, its own inference. -/
def Obligations.StepKeepsMaskAccumulator : Prop :=
  (∀ s t : State, ControlInv s → MaskInv s → step s = .next t → MaskInv t) ∧
  (∀ s : State, MaskInv s → s.st ≠ .idle → s.j = s.kr →
    s.m = buildMask s.position s.hr s.kr s.i)

/-- R125: `V` is the aggregate accumulator after `I` words whenever a TEST runs on an array that is
not written under it and answers; the spec marks it `[derived]`, its own inference. -/
def Obligations.StepKeepsAggregateAccumulator : Prop :=
  (∀ s t : State, ControlInv s → MaskInv s → AggInv s → step s = .next t → AggInv t) ∧
  (∀ s : State, ControlInv s → AggInv s → s.st = .fin → s.mode = .test → s.unstable = false →
    ArrayAnswers s s.nwr → s.v = aggAcc s.position s.hr s.kr s.word s.nwr.toNat)

/-- The array stays in canonical form, whatever the inserter writes. -/
def Obligations.StepKeepsArrayCanonical : Prop :=
  ∀ s t : State, MemoryInv s → step s = .next t → MemoryInv t

/-- The four invariants hold after reset. -/
def Obligations.ResetSatisfiesInvariants : Prop :=
  ControlInv State.reset ∧ MaskInv State.reset ∧ AggInv State.reset ∧ MemoryInv State.reset

/-! ### Whole operations -/

/-- R111: MASK, accepted in any IDLE state with no reset for its `K + 2` steps, ends in IDLE with
`DONE` = 1 and `R` = `buildMask(H, K, A)` of the sampled values; `V` and `NWR` are unchanged; before
the end `DONE` = 0 and `R` is the old result; its steps are the accept step, `K` ROUND steps and
FIN, told by the trace of R117, which the spec marks `[derived]`, its own inference. -/
def Obligations.MaskOperationComputesBuildMask : Prop :=
  ∀ (s : State) (ct : BitVec 6), Accepts s (.mask ct) → NoReset (maskSteps s.now.k) s →
    (∃ t, run (maskSteps s.now.k) s = .next t ∧ t.st = .idle ∧ t.done = true ∧
      t.r = buildMask s.position s.now.h s.now.k s.now.a ∧ t.v = s.v ∧ t.nwr = s.nwr ∧
      t.mode = .mask ∧ t.hr = s.now.h ∧ t.kr = s.now.k ∧ t.i = s.now.a ∧ t.j = s.now.k ∧ t.m = t.r) ∧
    (∀ n u, 0 < n → n < maskSteps s.now.k → run n s = .next u →
      u.done = false ∧ u.busy = true ∧ u.r = s.r) ∧
    trace (maskSteps s.now.k) s = maskTrace s.now.k

/-- R121: TEST, accepted in any IDLE state with no reset for its `NW*(K+1) + 2` steps, on an array
that answers and is not written below `NW`, ends in IDLE with `DONE` = 1 and `R` = `testResult`; before
the end `DONE` = 0 and `R` is the old result; its steps are the accept step, for each word `K` ROUND
steps and one WORD step, and FIN, told by the trace of R128, which the spec marks `[derived]`, its own
inference. -/
def Obligations.TestOperationComputesTestResult : Prop :=
  ∀ (s : State) (ct : BitVec 6), Accepts s (.test ct) →
    NoReset (testSteps s.now.k s.now.nw) s →
    ArrayStable (testSteps s.now.k s.now.nw) s.now.nw s → ArrayAnswers s s.now.nw →
    (∃ t, run (testSteps s.now.k s.now.nw) s = .next t ∧ t.st = .idle ∧ t.done = true ∧
      t.r = testResult s.position s.now.h s.now.k s.now.nw s.word ∧
      t.mode = .test ∧ t.hr = s.now.h ∧ t.kr = s.now.k ∧ t.nwr = s.now.nw ∧ t.i = s.now.nw ∧
      t.v = aggAcc s.position s.now.h s.now.k s.word s.now.nw.toNat) ∧
    (∀ n u, 0 < n → n < testSteps s.now.k s.now.nw → run n s = .next u →
      u.done = false ∧ u.busy = true ∧ u.r = s.r) ∧
    trace (testSteps s.now.k s.now.nw) s = testTrace s.now.k s.now.nw

/-- R117: the trace of MASK depends on `K` alone, and the position collaborator is asked for
`j = 0, ..., K-1` in that order, each time with the sampled hash result, with no memory request;
the spec marks it `[derived]`, its own inference. -/
def Obligations.MaskTraceDependsOnRoundCountOnly : Prop :=
  ∀ (s : State) (ct : BitVec 6), Accepts s (.mask ct) → NoReset (maskSteps s.now.k) s →
    trace (maskSteps s.now.k) s = maskTrace s.now.k ∧
    (∀ n u, n < s.now.k.toNat → run (n + 1) s = .next u →
      u.outputs.posReq = true ∧ u.outputs.posH = s.now.h ∧ u.outputs.posJ = BitVec.ofNat 64 n ∧
      u.outputs.memReq = false)

/-- R128: the trace of TEST is a function of `K` and `NW` alone: no premise on the array, the
positions or the element; the spec marks it `[derived]`, its own inference. -/
def Obligations.TestTraceDependsOnPublicDataOnly : Prop :=
  ∀ (s : State) (ct : BitVec 6), Accepts s (.test ct) → NoReset (testSteps s.now.k s.now.nw) s →
    trace (testSteps s.now.k s.now.nw) s = testTrace s.now.k s.now.nw

/-- R57: a TEST reads the word indices `0, 1, ..., NW-1`, each exactly once, in that order, whatever
the outcome. -/
def Obligations.TestReadsEveryWordOnce : Prop :=
  ∀ (s : State) (ct : BitVec 6), Accepts s (.test ct) → NoReset (testSteps s.now.k s.now.nw) s →
    (trace (testSteps s.now.k s.now.nw) s).filterMap Event.readIndex? =
      (List.range s.now.nw.toNat).map (BitVec.ofNat 64)

/-- R10: every step keeps agreement on the public data, and two states that agree on it emit the same
event; so two runs with the same public data have the same trace, for any number of steps and any
commands and resets on the way. -/
def Obligations.SamePublicDataSameTrace : Prop :=
  (∀ s t s' t' : State, PublicEq s t → step s = .next s' → step t = .next t' →
    PublicEq s' t' ∧ s.event = t.event) ∧
  (∀ (n : Nat) (s t : State), PublicEq s t → trace n s = trace n t)

/-- R43, R11 (R43 is marked `[derived]`, the spec's own inference): no step reads what an earlier
operation or the reset left in a register: states that
agree on the live registers keep agreeing on them, emit the same event, and agree on `R` and `DONE`
after every step that completes an operation. -/
def Obligations.NoStepReadsStaleRegisters : Prop :=
  ∀ s t s' t' : State, LiveEq s t → step s = .next s' → step t = .next t' →
    LiveEq s' t' ∧ s.event = t.event ∧
    ((∃ op, s.event = .single op) ∨ s.event = .fin →
      s'.r = t'.r ∧ s'.done = true ∧ t'.done = true)

/-- R129: if every position of the element is a 1 in the array, TEST gives 1; the spec marks this
form of the law `[derived]`, its own inference. -/
def Obligations.InsertedElementTestsPresent : Prop :=
  ∀ (s : State) (ct : BitVec 6), Accepts s (.test ct) →
    NoReset (testSteps s.now.k s.now.nw) s →
    ArrayStable (testSteps s.now.k s.now.nw) s.now.nw s → ArrayAnswers s s.now.nw →
    ReferenceTest s.position s.now.h s.now.k s.word →
    ∃ t, run (testSteps s.now.k s.now.nw) s = .next t ∧ t.done = true ∧ t.r = 1

/-- R131: with `K` = 0 or `NW` = 0 the loops run zero times: TEST gives 1, MASK gives 0, with the
table's steps and traces, whatever the memory answers. -/
def Obligations.EmptyLoopsFallThrough : Prop :=
  (∀ (s : State) (ct : BitVec 6), Accepts s (.test ct) → s.now.k = 0 → 1 ≤ s.now.nw.toNat →
    NoReset (s.now.nw.toNat + 2) s →
    ∃ t, run (s.now.nw.toNat + 2) s = .next t ∧ t.done = true ∧ t.r = 1 ∧
      trace (s.now.nw.toNat + 2) s =
        .start .test :: ((List.range s.now.nw.toNat).map (fun i => .read (BitVec.ofNat 64 i))
          ++ [.fin])) ∧
  (∀ (s : State) (ct : BitVec 6), Accepts s (.test ct) → s.now.nw = 0 → NoReset 2 s →
    ∃ t, run 2 s = .next t ∧ t.done = true ∧ t.r = 1 ∧ trace 2 s = [.start .test, .fin]) ∧
  (∀ (s : State) (ct : BitVec 6), Accepts s (.mask ct) → s.now.k = 0 → NoReset 2 s →
    ∃ t, run 2 s = .next t ∧ t.done = true ∧ t.r = 0 ∧ trace 2 s = [.start .mask, .fin])

/-- R163, R152: in IDLE, while no reset and no command but NOP and the reserved codes comes, every
register keeps its value for any number of steps. -/
def Obligations.IdleHoldsAllRegisters : Prop :=
  ∀ (n : Nat) (s : State), StartsIdle n s →
    (∀ x ∈ s.inputs.take n, commandEvent (decode x.cmd) = .idle) →
    ∃ t, run n s = .next t ∧ t.st = .idle ∧ t.done = s.done ∧ t.r = s.r ∧ t.mode = s.mode ∧
      t.hr = s.hr ∧ t.kr = s.kr ∧ t.nwr = s.nwr ∧ t.i = s.i ∧ t.j = s.j ∧ t.m = s.m ∧ t.v = s.v

/-! ### How defects show -/

/-- R153: CORE has the properties that R153 names, and any implementation that has them all computes the
same primitives, gives the same result of a test within the range contract, and reads the same word
indices. They fix no more than that: neither the result on positions out of range nor the other events
of the trace. The properties are the spec's own inferences R127 to R129 and the laws of R90, R92 and
R94. -/
def Obligations.PropertiesFixPrimitivesResultsAndReads : Prop :=
  coreImplementation.ShowsNoDefect ∧
  ∀ d : Implementation, d.ShowsNoDefect →
    d.eq = eq64 ∧ d.select = select64 ∧ d.shl = shl64 ∧
    (∀ position h k nw word m, PositionInRange position h k nw m →
      d.test position h k nw word = testResult position h k nw word) ∧
    (∀ s, StartsTest s → (d.testTrace s).filterMap Event.readIndex? =
      (trace (testSteps s.now.k s.now.nw) s).filterMap Event.readIndex?)
end

