-- ==== Sys2Proof/Laws/State.lean ====
section
/-!
SUPPORT. One lemma per field and update of State: what the update leaves in the field. All true by
unfolding, so that no later proof unfolds a record update.
-/

namespace Sys2Proof.Machine

/-! ### `State.complete` (spec/10_state.md R21, R22) -/

@[simp] theorem State.complete_st (s : State) (x : Word) : (s.complete x).st = s.st := rfl
@[simp] theorem State.complete_done (s : State) (x : Word) : (s.complete x).done = true := rfl
@[simp] theorem State.complete_r (s : State) (x : Word) : (s.complete x).r = x := rfl
@[simp] theorem State.complete_mode (s : State) (x : Word) : (s.complete x).mode = s.mode := rfl
@[simp] theorem State.complete_hr (s : State) (x : Word) : (s.complete x).hr = s.hr := rfl
@[simp] theorem State.complete_kr (s : State) (x : Word) : (s.complete x).kr = s.kr := rfl
@[simp] theorem State.complete_nwr (s : State) (x : Word) : (s.complete x).nwr = s.nwr := rfl
@[simp] theorem State.complete_i (s : State) (x : Word) : (s.complete x).i = s.i := rfl
@[simp] theorem State.complete_j (s : State) (x : Word) : (s.complete x).j = s.j := rfl
@[simp] theorem State.complete_m (s : State) (x : Word) : (s.complete x).m = s.m := rfl
@[simp] theorem State.complete_v (s : State) (x : Word) : (s.complete x).v = s.v := rfl
@[simp] theorem State.complete_array (s : State) (x : Word) : (s.complete x).array = s.array := rfl
@[simp] theorem State.complete_positions (s : State) (x : Word) :
    (s.complete x).positions = s.positions := rfl
@[simp] theorem State.complete_inputs (s : State) (x : Word) :
    (s.complete x).inputs = s.inputs := rfl
@[simp] theorem State.complete_disturbed (s : State) (x : Word) :
    (s.complete x).disturbed = s.disturbed := rfl
@[simp] theorem State.complete_draws (s : State) (x : Word) : (s.complete x).draws = s.draws := rfl

/-! ### `State.latch` (spec/10_state.md R26, R27) -/

@[simp] theorem State.latch_st (s : State) (md : Mode) : (s.latch md).st = s.st := rfl
@[simp] theorem State.latch_done (s : State) (md : Mode) : (s.latch md).done = false := rfl
@[simp] theorem State.latch_r (s : State) (md : Mode) : (s.latch md).r = s.r := rfl
@[simp] theorem State.latch_mode (s : State) (md : Mode) : (s.latch md).mode = md := rfl
@[simp] theorem State.latch_hr (s : State) (md : Mode) : (s.latch md).hr = s.opH := rfl
@[simp] theorem State.latch_kr (s : State) (md : Mode) : (s.latch md).kr = s.opK := rfl
@[simp] theorem State.latch_nwr (s : State) (md : Mode) : (s.latch md).nwr = s.nwr := rfl
@[simp] theorem State.latch_i (s : State) (md : Mode) : (s.latch md).i = s.i := rfl
@[simp] theorem State.latch_j (s : State) (md : Mode) : (s.latch md).j = 0 := rfl
@[simp] theorem State.latch_m (s : State) (md : Mode) : (s.latch md).m = 0 := rfl
@[simp] theorem State.latch_v (s : State) (md : Mode) : (s.latch md).v = s.v := rfl
@[simp] theorem State.latch_array (s : State) (md : Mode) : (s.latch md).array = s.array := rfl
@[simp] theorem State.latch_positions (s : State) (md : Mode) :
    (s.latch md).positions = s.positions := rfl
@[simp] theorem State.latch_inputs (s : State) (md : Mode) : (s.latch md).inputs = s.inputs := rfl
@[simp] theorem State.latch_disturbed (s : State) (md : Mode) :
    (s.latch md).disturbed = s.disturbed := rfl
@[simp] theorem State.latch_draws (s : State) (md : Mode) : (s.latch md).draws = s.draws := rfl

/-! ### MASK's accept step (spec/41_mask_builder.md R113) -/

@[simp] theorem State.acceptMask_st (s : State) :
    s.acceptMask.st = nxt .mask s.opA 0 s.opK s.nwr := rfl
@[simp] theorem State.acceptMask_done (s : State) : s.acceptMask.done = false := rfl
@[simp] theorem State.acceptMask_r (s : State) : s.acceptMask.r = s.r := rfl
@[simp] theorem State.acceptMask_mode (s : State) : s.acceptMask.mode = .mask := rfl
@[simp] theorem State.acceptMask_hr (s : State) : s.acceptMask.hr = s.opH := rfl
@[simp] theorem State.acceptMask_kr (s : State) : s.acceptMask.kr = s.opK := rfl
@[simp] theorem State.acceptMask_nwr (s : State) : s.acceptMask.nwr = s.nwr := rfl
@[simp] theorem State.acceptMask_i (s : State) : s.acceptMask.i = s.opA := rfl
@[simp] theorem State.acceptMask_j (s : State) : s.acceptMask.j = 0 := rfl
@[simp] theorem State.acceptMask_m (s : State) : s.acceptMask.m = 0 := rfl
@[simp] theorem State.acceptMask_v (s : State) : s.acceptMask.v = s.v := rfl
@[simp] theorem State.acceptMask_array (s : State) : s.acceptMask.array = s.array := rfl
@[simp] theorem State.acceptMask_positions (s : State) : s.acceptMask.positions = s.positions := rfl
@[simp] theorem State.acceptMask_inputs (s : State) : s.acceptMask.inputs = s.inputs := rfl
@[simp] theorem State.acceptMask_disturbed (s : State) : s.acceptMask.disturbed = s.disturbed := rfl
@[simp] theorem State.acceptMask_draws (s : State) : s.acceptMask.draws = s.draws := rfl

/-! ### TEST's accept step (spec/42_test_aggregator.md R122) -/

@[simp] theorem State.acceptTest_st (s : State) :
    s.acceptTest.st = nxt .test 0 0 s.opK s.opNW := rfl
@[simp] theorem State.acceptTest_done (s : State) : s.acceptTest.done = false := rfl
@[simp] theorem State.acceptTest_r (s : State) : s.acceptTest.r = s.r := rfl
@[simp] theorem State.acceptTest_mode (s : State) : s.acceptTest.mode = .test := rfl
@[simp] theorem State.acceptTest_hr (s : State) : s.acceptTest.hr = s.opH := rfl
@[simp] theorem State.acceptTest_kr (s : State) : s.acceptTest.kr = s.opK := rfl
@[simp] theorem State.acceptTest_nwr (s : State) : s.acceptTest.nwr = s.opNW := rfl
@[simp] theorem State.acceptTest_i (s : State) : s.acceptTest.i = 0 := rfl
@[simp] theorem State.acceptTest_j (s : State) : s.acceptTest.j = 0 := rfl
@[simp] theorem State.acceptTest_m (s : State) : s.acceptTest.m = 0 := rfl
@[simp] theorem State.acceptTest_v (s : State) : s.acceptTest.v = 0 := rfl
@[simp] theorem State.acceptTest_array (s : State) : s.acceptTest.array = s.array := rfl
@[simp] theorem State.acceptTest_positions (s : State) : s.acceptTest.positions = s.positions := rfl
@[simp] theorem State.acceptTest_inputs (s : State) : s.acceptTest.inputs = s.inputs := rfl
@[simp] theorem State.acceptTest_disturbed (s : State) : s.acceptTest.disturbed = false := rfl
@[simp] theorem State.acceptTest_draws (s : State) : s.acceptTest.draws = s.draws := rfl

/-! ### `State.tick`: the edge (log 5, log 6) -/

@[simp] theorem State.tick_st (s : State) : s.tick.st = s.st := rfl
@[simp] theorem State.tick_done (s : State) : s.tick.done = s.done := rfl
@[simp] theorem State.tick_r (s : State) : s.tick.r = s.r := rfl
@[simp] theorem State.tick_mode (s : State) : s.tick.mode = s.mode := rfl
@[simp] theorem State.tick_hr (s : State) : s.tick.hr = s.hr := rfl
@[simp] theorem State.tick_kr (s : State) : s.tick.kr = s.kr := rfl
@[simp] theorem State.tick_nwr (s : State) : s.tick.nwr = s.nwr := rfl
@[simp] theorem State.tick_i (s : State) : s.tick.i = s.i := rfl
@[simp] theorem State.tick_j (s : State) : s.tick.j = s.j := rfl
@[simp] theorem State.tick_m (s : State) : s.tick.m = s.m := rfl
@[simp] theorem State.tick_v (s : State) : s.tick.v = s.v := rfl
@[simp] theorem State.tick_array (s : State) : s.tick.array = landWrite s.array s.now.insert := rfl
@[simp] theorem State.tick_positions (s : State) : s.tick.positions = s.positions := rfl
@[simp] theorem State.tick_inputs (s : State) : s.tick.inputs = s.inputs.tail := rfl
@[simp] theorem State.tick_disturbed (s : State) : s.tick.disturbed = (s.disturbed || s.hits) := rfl
@[simp] theorem State.tick_draws (s : State) : s.tick.draws = s.draws := rfl

/-! ### the ROUND step (spec/41_mask_builder.md R114) -/

@[simp] theorem State.roundStep_st (s : State) :
    s.roundStep.st = nxt s.mode s.i (s.j + 1) s.kr s.nwr := rfl
@[simp] theorem State.roundStep_done (s : State) : s.roundStep.done = s.done := rfl
@[simp] theorem State.roundStep_r (s : State) : s.roundStep.r = s.r := rfl
@[simp] theorem State.roundStep_mode (s : State) : s.roundStep.mode = s.mode := rfl
@[simp] theorem State.roundStep_hr (s : State) : s.roundStep.hr = s.hr := rfl
@[simp] theorem State.roundStep_kr (s : State) : s.roundStep.kr = s.kr := rfl
@[simp] theorem State.roundStep_nwr (s : State) : s.roundStep.nwr = s.nwr := rfl
@[simp] theorem State.roundStep_i (s : State) : s.roundStep.i = s.i := rfl
@[simp] theorem State.roundStep_j (s : State) : s.roundStep.j = s.j + 1 := rfl
@[simp] theorem State.roundStep_m (s : State) :
    s.roundStep.m = s.m ||| roundTerm (s.position s.hr s.j) s.i := rfl
@[simp] theorem State.roundStep_v (s : State) : s.roundStep.v = s.v := rfl
@[simp] theorem State.roundStep_array (s : State) : s.roundStep.array = s.array := rfl
@[simp] theorem State.roundStep_positions (s : State) : s.roundStep.positions = s.positions := rfl
@[simp] theorem State.roundStep_inputs (s : State) : s.roundStep.inputs = s.inputs := rfl
@[simp] theorem State.roundStep_disturbed (s : State) : s.roundStep.disturbed = s.disturbed := rfl
@[simp] theorem State.roundStep_draws (s : State) : s.roundStep.draws = s.draws := rfl

/-! ### the WORD step (spec/42_test_aggregator.md R124) -/

@[simp] theorem State.wordStep_st (s : State) :
    s.wordStep.st = nxt .test (s.i + 1) 0 s.kr s.nwr := rfl
@[simp] theorem State.wordStep_done (s : State) : s.wordStep.done = s.done := rfl
@[simp] theorem State.wordStep_r (s : State) : s.wordStep.r = s.r := rfl
@[simp] theorem State.wordStep_mode (s : State) : s.wordStep.mode = s.mode := rfl
@[simp] theorem State.wordStep_hr (s : State) : s.wordStep.hr = s.hr := rfl
@[simp] theorem State.wordStep_kr (s : State) : s.wordStep.kr = s.kr := rfl
@[simp] theorem State.wordStep_nwr (s : State) : s.wordStep.nwr = s.nwr := rfl
@[simp] theorem State.wordStep_i (s : State) : s.wordStep.i = s.i + 1 := rfl
@[simp] theorem State.wordStep_j (s : State) : s.wordStep.j = 0 := rfl
@[simp] theorem State.wordStep_m (s : State) : s.wordStep.m = 0 := rfl
@[simp] theorem State.wordStep_v (s : State) : s.wordStep.v = aggregate s.v s.memRead s.m := rfl
@[simp] theorem State.wordStep_array (s : State) : s.wordStep.array = s.array := rfl
@[simp] theorem State.wordStep_positions (s : State) : s.wordStep.positions = s.positions := rfl
@[simp] theorem State.wordStep_inputs (s : State) : s.wordStep.inputs = s.inputs := rfl
@[simp] theorem State.wordStep_disturbed (s : State) : s.wordStep.disturbed = s.disturbed := rfl
@[simp] theorem State.wordStep_draws (s : State) : s.wordStep.draws = s.draws + 1 := rfl

/-! ### the FIN step of MASK (spec/41_mask_builder.md R116) -/

@[simp] theorem State.finMask_st (s : State) : s.finMask.st = .idle := rfl
@[simp] theorem State.finMask_done (s : State) : s.finMask.done = true := rfl
@[simp] theorem State.finMask_r (s : State) : s.finMask.r = s.m := rfl
@[simp] theorem State.finMask_mode (s : State) : s.finMask.mode = s.mode := rfl
@[simp] theorem State.finMask_hr (s : State) : s.finMask.hr = s.hr := rfl
@[simp] theorem State.finMask_kr (s : State) : s.finMask.kr = s.kr := rfl
@[simp] theorem State.finMask_nwr (s : State) : s.finMask.nwr = s.nwr := rfl
@[simp] theorem State.finMask_i (s : State) : s.finMask.i = s.i := rfl
@[simp] theorem State.finMask_j (s : State) : s.finMask.j = s.j := rfl
@[simp] theorem State.finMask_m (s : State) : s.finMask.m = s.m := rfl
@[simp] theorem State.finMask_v (s : State) : s.finMask.v = s.v := rfl
@[simp] theorem State.finMask_array (s : State) : s.finMask.array = s.array := rfl
@[simp] theorem State.finMask_positions (s : State) : s.finMask.positions = s.positions := rfl
@[simp] theorem State.finMask_inputs (s : State) : s.finMask.inputs = s.inputs := rfl
@[simp] theorem State.finMask_disturbed (s : State) : s.finMask.disturbed = s.disturbed := rfl
@[simp] theorem State.finMask_draws (s : State) : s.finMask.draws = s.draws := rfl

/-! ### the FIN step of TEST (spec/42_test_aggregator.md R126) -/

@[simp] theorem State.finTest_st (s : State) : s.finTest.st = .idle := rfl
@[simp] theorem State.finTest_done (s : State) : s.finTest.done = true := rfl
@[simp] theorem State.finTest_r (s : State) : s.finTest.r = eq64 s.v 0 := rfl
@[simp] theorem State.finTest_mode (s : State) : s.finTest.mode = s.mode := rfl
@[simp] theorem State.finTest_hr (s : State) : s.finTest.hr = s.hr := rfl
@[simp] theorem State.finTest_kr (s : State) : s.finTest.kr = s.kr := rfl
@[simp] theorem State.finTest_nwr (s : State) : s.finTest.nwr = s.nwr := rfl
@[simp] theorem State.finTest_i (s : State) : s.finTest.i = s.i := rfl
@[simp] theorem State.finTest_j (s : State) : s.finTest.j = s.j := rfl
@[simp] theorem State.finTest_m (s : State) : s.finTest.m = s.m := rfl
@[simp] theorem State.finTest_v (s : State) : s.finTest.v = s.v := rfl
@[simp] theorem State.finTest_array (s : State) : s.finTest.array = s.array := rfl
@[simp] theorem State.finTest_positions (s : State) : s.finTest.positions = s.positions := rfl
@[simp] theorem State.finTest_inputs (s : State) : s.finTest.inputs = s.inputs := rfl
@[simp] theorem State.finTest_disturbed (s : State) : s.finTest.disturbed = s.disturbed := rfl
@[simp] theorem State.finTest_draws (s : State) : s.finTest.draws = s.draws := rfl

/-! ### the reset step (spec/70_reset_and_hazards.md R160); its free values are not rewritten -/

@[simp] theorem State.resetStep_st (s : State) : s.resetStep.st = .idle := rfl
@[simp] theorem State.resetStep_done (s : State) : s.resetStep.done = false := rfl
@[simp] theorem State.resetStep_array (s : State) : s.resetStep.array = s.array := rfl
@[simp] theorem State.resetStep_positions (s : State) : s.resetStep.positions = s.positions := rfl
@[simp] theorem State.resetStep_inputs (s : State) : s.resetStep.inputs = s.inputs := rfl
@[simp] theorem State.resetStep_disturbed (s : State) : s.resetStep.disturbed = false := rfl
@[simp] theorem State.resetStep_draws (s : State) : s.resetStep.draws = s.draws + 11 := rfl

/-! ### `State.presentCommand` (log 12) -/

@[simp] theorem State.presentCommand_st (s : State) (w : CmdWord) :
    (s.presentCommand w).st = .idle := rfl
@[simp] theorem State.presentCommand_done (s : State) (w : CmdWord) :
    (s.presentCommand w).done = s.done := rfl
@[simp] theorem State.presentCommand_r (s : State) (w : CmdWord) :
    (s.presentCommand w).r = s.r := rfl
@[simp] theorem State.presentCommand_mode (s : State) (w : CmdWord) :
    (s.presentCommand w).mode = s.mode := rfl
@[simp] theorem State.presentCommand_hr (s : State) (w : CmdWord) :
    (s.presentCommand w).hr = s.hr := rfl
@[simp] theorem State.presentCommand_kr (s : State) (w : CmdWord) :
    (s.presentCommand w).kr = s.kr := rfl
@[simp] theorem State.presentCommand_nwr (s : State) (w : CmdWord) :
    (s.presentCommand w).nwr = s.nwr := rfl
@[simp] theorem State.presentCommand_i (s : State) (w : CmdWord) :
    (s.presentCommand w).i = s.i := rfl
@[simp] theorem State.presentCommand_j (s : State) (w : CmdWord) :
    (s.presentCommand w).j = s.j := rfl
@[simp] theorem State.presentCommand_m (s : State) (w : CmdWord) :
    (s.presentCommand w).m = s.m := rfl
@[simp] theorem State.presentCommand_v (s : State) (w : CmdWord) :
    (s.presentCommand w).v = s.v := rfl
@[simp] theorem State.presentCommand_array (s : State) (w : CmdWord) :
    (s.presentCommand w).array = s.array := rfl
@[simp] theorem State.presentCommand_positions (s : State) (w : CmdWord) :
    (s.presentCommand w).positions = s.positions := rfl
@[simp] theorem State.presentCommand_disturbed (s : State) (w : CmdWord) :
    (s.presentCommand w).disturbed = s.disturbed := rfl
@[simp] theorem State.presentCommand_draws (s : State) (w : CmdWord) :
    (s.presentCommand w).draws = s.draws := rfl

/-! ### What the ports carry is not changed by CORE's own writes -/

@[simp] theorem State.complete_now (s : State) (x : Word) : (s.complete x).now = s.now := rfl
@[simp] theorem State.latch_now (s : State) (md : Mode) : (s.latch md).now = s.now := rfl
@[simp] theorem State.acceptMask_now (s : State) : s.acceptMask.now = s.now := rfl
@[simp] theorem State.acceptTest_now (s : State) : s.acceptTest.now = s.now := rfl
@[simp] theorem State.roundStep_now (s : State) : s.roundStep.now = s.now := rfl
@[simp] theorem State.wordStep_now (s : State) : s.wordStep.now = s.now := rfl
@[simp] theorem State.finMask_now (s : State) : s.finMask.now = s.now := rfl
@[simp] theorem State.finTest_now (s : State) : s.finTest.now = s.now := rfl
@[simp] theorem State.resetStep_now (s : State) : s.resetStep.now = s.now := rfl
@[simp] theorem State.presentCommand_now (s : State) (w : CmdWord) :
    (s.presentCommand w).now = { s.now with rst := false, cmd := w } := rfl

/-! ### The collaborator's answers do not change (spec/00_scope.md R13) -/

@[simp] theorem State.tick_position (s : State) : s.tick.position = s.position := rfl
@[simp] theorem State.latch_position (s : State) (md : Mode) : (s.latch md).position = s.position := rfl
@[simp] theorem State.acceptMask_position (s : State) : s.acceptMask.position = s.position := rfl
@[simp] theorem State.acceptTest_position (s : State) : s.acceptTest.position = s.position := rfl
@[simp] theorem State.complete_position (s : State) (x : Word) :
    (s.complete x).position = s.position := rfl
@[simp] theorem State.roundStep_position (s : State) : s.roundStep.position = s.position := rfl
@[simp] theorem State.wordStep_position (s : State) : s.wordStep.position = s.position := rfl
@[simp] theorem State.finMask_position (s : State) : s.finMask.position = s.position := rfl
@[simp] theorem State.finTest_position (s : State) : s.finTest.position = s.position := rfl
@[simp] theorem State.resetStep_position (s : State) : s.resetStep.position = s.position := rfl

end Sys2Proof.Machine
end

