-- ==== Sys2Proof/Laws/Step.lean ====
section
/-!
SUPPORT. Everything a command's meaning and a step can do, said once: later proofs cite these and
unfold neither `exec` nor `step`.
-/

namespace Sys2Proof.Machine

/-- Everything a command can do to the state in its accept step (spec/30_encoding.md R76). -/
theorem exec_cases {i : Instr} {s u : State} (h : exec i s = .next u) :
    u = s ∨ (∃ x, u = s.complete x) ∨
    (∃ ct, i = .mask ct ∧ u = s.acceptMask) ∨ (∃ ct, i = .test ct ∧ u = s.acceptTest) := by
  cases i with
  | nop ct => exact .inl (Host.Outcome.next.inj h).symm
  | rsv6 ct => exact .inl (Host.Outcome.next.inj h).symm
  | rsv7 ct => exact .inl (Host.Outcome.next.inj h).symm
  | eq64 ct => exact .inr (.inl ⟨_, (Host.Outcome.next.inj h).symm⟩)
  | sel64 ign cond => exact .inr (.inl ⟨_, (Host.Outcome.next.inj h).symm⟩)
  | shl64 amount => exact .inr (.inl ⟨_, (Host.Outcome.next.inj h).symm⟩)
  | mask ct => exact .inr (.inr (.inl ⟨ct, rfl, (Host.Outcome.next.inj h).symm⟩))
  | test ct => exact .inr (.inr (.inr ⟨ct, rfl, (Host.Outcome.next.inj h).symm⟩))

/-- No command writes the array, the collaborator's table or the port records. -/
theorem exec_keeps_outside {i : Instr} {s u : State} (h : exec i s = .next u) :
    u.array = s.array ∧ u.positions = s.positions ∧ u.inputs = s.inputs ∧ u.draws = s.draws := by
  obtain rfl | ⟨x, rfl⟩ | ⟨ct, -, rfl⟩ | ⟨ct, -, rfl⟩ := exec_cases h
  all_goals exact ⟨rfl, rfl, rfl, rfl⟩

/-- Everything a step can do (spec/30_encoding.md R75). -/
theorem step_cases {s t : State} (h : step s = .next t) :
    (s.now.rst = true ∧ t = s.resetStep.tick) ∨
    (s.now.rst = false ∧ s.st = .idle ∧ ∃ u, exec (decode s.now.cmd) s = .next u ∧ t = u.tick) ∨
    (s.now.rst = false ∧ s.st = .round ∧ t = s.roundStep.tick) ∨
    (s.now.rst = false ∧ s.st = .word ∧ t = s.wordStep.tick) ∨
    (s.now.rst = false ∧ s.st = .fin ∧ s.mode = .mask ∧ t = s.finMask.tick) ∨
    (s.now.rst = false ∧ s.st = .fin ∧ s.mode = .test ∧ t = s.finTest.tick) := by
  unfold step at h
  by_cases hr : s.now.rst = true
  · rw [if_pos hr] at h
    exact .inl ⟨hr, (Host.Outcome.next.inj h).symm⟩
  · rw [if_neg hr] at h
    have hr' : s.now.rst = false := by simpa using hr
    cases hst : s.st with
    | idle =>
      rw [hst] at h
      refine .inr (.inl ⟨hr', rfl, ?_⟩)
      cases he : exec (decode s.now.cmd) s with
      | next u =>
        rw [he] at h
        exact ⟨u, rfl, (Host.Outcome.next.inj h).symm⟩
      | fault f => rw [he] at h; exact nomatch h
      | refused r => rw [he] at h; exact nomatch h
    | round =>
      simp only [hst, State.busyStep] at h
      exact .inr (.inr (.inl ⟨hr', rfl, (Host.Outcome.next.inj h).symm⟩))
    | word =>
      simp only [hst, State.busyStep] at h
      exact .inr (.inr (.inr (.inl ⟨hr', rfl, (Host.Outcome.next.inj h).symm⟩)))
    | fin =>
      simp only [hst, State.busyStep, State.finStep] at h
      cases hm : s.mode with
      | mask =>
        rw [hm] at h
        exact .inr (.inr (.inr (.inr (.inl ⟨hr', rfl, rfl, (Host.Outcome.next.inj h).symm⟩))))
      | test =>
        rw [hm] at h
        exact .inr (.inr (.inr (.inr (.inr ⟨hr', rfl, rfl, (Host.Outcome.next.inj h).symm⟩))))

/-- `nxt` in MASK mode never leads to WORD or IDLE (spec/41_mask_builder.md R112). -/
theorem nxt_mask_cases (i j kr nwr : Word) :
    (j = kr ∧ nxt .mask i j kr nwr = .fin) ∨ (j ≠ kr ∧ nxt .mask i j kr nwr = .round) := by
  by_cases h : j = kr
  · exact .inl ⟨h, by simp [nxt, h]⟩
  · exact .inr ⟨h, by simp [nxt, h]⟩

/-- In MASK mode `nxt` reads neither the word index nor the word count (R112). -/
theorem nxt_mask_congr (i i' j kr nwr nwr' : Word) :
    nxt .mask i j kr nwr = nxt .mask i' j kr nwr' := rfl

/-- `nxt` in TEST mode, by its three clauses (R112). -/
theorem nxt_test_cases (i j kr nwr : Word) :
    (i = nwr ∧ nxt .test i j kr nwr = .fin) ∨
    (i ≠ nwr ∧ j = kr ∧ nxt .test i j kr nwr = .word) ∨
    (i ≠ nwr ∧ j ≠ kr ∧ nxt .test i j kr nwr = .round) := by
  by_cases h : i = nwr
  · exact .inl ⟨h, by simp [nxt, h]⟩
  · by_cases h' : j = kr
    · exact .inr (.inl ⟨h, h', by simp [nxt, h, h']⟩)
    · exact .inr (.inr ⟨h, h', by simp [nxt, h, h']⟩)

end Sys2Proof.Machine
end

