-- ==== Sys2Proof/Laws/ArrayPort.lean ====
section
/-!
SUPPORT. What the array port can answer (spec/20_memory.md R52, R56), and that a TEST is disturbed
for the whole of its length or not at all (log 7).
-/

namespace Sys2Proof.Machine

/-! ### The answer -/

/-- Every read of a disturbed TEST is a free value (93 U4). -/
theorem State.memRead_of_unstable {s : State} (h : s.unstable = true) :
    s.memRead = Config.freeWord s.draws := by
  rw [State.memRead, if_pos h]

/-- A read that the memory cannot answer is a free value (93 U5). -/
theorem State.memRead_of_unanswered {s : State} (h : Memory.readWord? s.array s.i = none) :
    s.memRead = Config.freeWord s.draws := by
  rw [State.memRead, h]
  split <;> rfl

/-- In a TEST that is not disturbed a read gives the array's word (R52, R56). -/
theorem State.memRead_of_answer {s : State} {w : Word} (h : s.unstable = false)
    (hw : Memory.readWord? s.array s.i = some w) : s.memRead = w := by
  rw [State.memRead, h, hw]
  rfl

/-! ### The writes to come -/

/-- Without a reset among them, the next `n` records disturb when one of them writes below `nw`. -/
theorem writesAhead_eq_any {nw : Word} {n : Nat} {l : List Inputs}
    (h : ∀ x ∈ l.take n, x.rst = false) :
    writesAhead nw n l = (l.take n).any (fun x => writesBelow nw x.insert) := by
  induction n generalizing l with
  | zero => simp [writesAhead]
  | succ n ih =>
    cases l with
    | nil => rfl
    | cons x rest =>
      have hx : x.rst = false := h x (by simp)
      have hrest : ∀ y ∈ rest.take n, y.rst = false := fun y hy => h y (by simp [hy])
      simp [writesAhead, hx, ih hrest]

/-- `ArrayStable` (R172) says that no write ahead disturbs. -/
theorem writesAhead_of_arrayStable {n : Nat} {nw : Word} {s : State} (h : ArrayStable n nw s) :
    writesAhead nw n s.inputs = false := by
  unfold ArrayStable at h
  generalize s.inputs = l at h
  induction n generalizing l with
  | zero => rfl
  | succ n ih =>
    cases l with
    | nil => rfl
    | cons x rest =>
      have hrest := ih rest fun y hy => h y (by simp [hy])
      have hx : writesBelow nw x.insert = false := by
        cases he : x.insert with
        | none => rfl
        | some e => simpa [writesBelow] using h x (by simp) e he
      simp [writesAhead, hx, hrest]

/-- The first record of the window is the coming edge's. -/
theorem writesAhead_now {s : State} {nw : Word} {n : Nat} (hr : s.now.rst = false) :
    writesAhead nw (n + 1) s.inputs =
      (writesBelow nw s.now.insert || writesAhead nw n s.inputs.tail) := by
  cases hi : s.inputs with
  | nil => cases n <;> simp [State.now, hi, writesAhead, writesBelow, Inputs.quiet]
  | cons x rest =>
    have hx : s.now = x := by simp [State.now, hi]
    simp [writesAhead, hx, hx ▸ hr]

/-! ### The steps left -/

theorem State.testStepsLeft_round {s : State} (h : s.st = .round) :
    s.testStepsLeft = (s.kr - s.j).toNat + s.stepsFromWord := by rw [State.testStepsLeft, h]
theorem State.testStepsLeft_word {s : State} (h : s.st = .word) :
    s.testStepsLeft = s.stepsFromWord := by rw [State.testStepsLeft, h]
theorem State.testStepsLeft_fin {s : State} (h : s.st = .fin) : s.testStepsLeft = 1 := by
  rw [State.testStepsLeft, h]

/-- Counting one step nearer to a bound that is not reached. -/
theorem toNat_sub_succ {a b : Word} (h : a ≠ b) : (b - a).toNat = (b - (a + 1)).toNat + 1 := by
  bv_omega

/-- Where a TEST enters word `I`, with no round of it done, every word from `I` on is still to be
scanned (R112, R123). -/
theorem testStepsLeft_enterWord {s : State} (hst : s.st = nxt .test s.i 0 s.kr s.nwr)
    (hj : s.j = 0) : s.testStepsLeft = (s.nwr - s.i).toNat * (s.kr.toNat + 1) + 1 := by
  rcases nxt_test_cases s.i 0 s.kr s.nwr with ⟨e, hn⟩ | ⟨hne, e, hn⟩ | ⟨hne, -, hn⟩ <;> rw [hn] at hst
  · rw [State.testStepsLeft_fin hst, e, BitVec.sub_self]
    simp
  · have hk : s.kr.toNat = 0 := by rw [← e]; rfl
    rw [State.testStepsLeft_word hst, State.stepsFromWord, toNat_sub_succ hne, hk]
    omega
  · have hk : (s.kr - s.j).toNat = s.kr.toNat := by rw [hj]; simp
    rw [State.testStepsLeft_round hst, State.stepsFromWord, hk, toNat_sub_succ hne, Nat.add_mul]
    omega

/-- While a TEST runs, a step that does not end it leaves one step fewer to take (R123). -/
theorem testStepsLeft_step {s t : State} (hc : ControlInv s) (hb : s.st ≠ .idle)
    (hm : s.mode = .test) (hr : s.now.rst = false) (h : step s = .next t) (ht : t.st ≠ .idle) :
    s.testStepsLeft = t.testStepsLeft + 1 := by
  rcases step_cases h with ⟨h1, -⟩ | ⟨-, h1, -⟩ | ⟨-, hst, rfl⟩ | ⟨-, hst, rfl⟩ | ⟨-, -, -, rfl⟩ |
    ⟨-, -, -, rfl⟩
  · rw [hr] at h1
    exact nomatch h1
  · exact absurd h1 hb
  · obtain ⟨hj, hi⟩ := hc.2.1 hst
    have hsub := toNat_sub_succ (a := s.j) (b := s.kr) fun e => by rw [e] at hj; omega
    have hst' : s.roundStep.tick.st = nxt .test s.i (s.j + 1) s.kr s.nwr := by
      rw [State.tick_st, State.roundStep_st, hm]
    have hword : s.roundStep.tick.stepsFromWord = s.stepsFromWord := rfl
    rcases nxt_test_cases s.i (s.j + 1) s.kr s.nwr with ⟨e, -⟩ | ⟨-, e, hn⟩ | ⟨-, -, hn⟩
    · have := hi hm
      rw [e] at this
      omega
    · have hz : (s.kr - (s.j + 1)).toNat = 0 := by rw [e, BitVec.sub_self]; rfl
      rw [State.testStepsLeft_round hst, State.testStepsLeft_word (hst'.trans hn), hword]
      omega
    · rw [State.testStepsLeft_round hst, State.testStepsLeft_round (hst'.trans hn), hword, hsub]
      show _ = (s.kr - (s.j + 1)).toNat + _ + 1
      omega
  · rw [State.testStepsLeft_word hst, testStepsLeft_enterWord (s := s.wordStep.tick) rfl rfl]
    rfl
  · exact absurd rfl ht
  · exact absurd rfl ht

/-! ### One value for the whole operation -/

/-- No step of a running TEST changes whether the TEST is disturbed: a write that was ahead is behind
after its edge (log 7). -/
theorem unstable_step {s t : State} (hc : ControlInv s) (hb : s.st ≠ .idle) (hm : s.mode = .test)
    (hr : s.now.rst = false) (h : step s = .next t) (ht : t.st ≠ .idle) :
    t.unstable = s.unstable := by
  have hleft := testStepsLeft_step hc hb hm hr h ht
  have hkeep : ∀ u : State, t = u.tick → u.mode = s.mode → u.nwr = s.nwr → u.inputs = s.inputs →
      u.disturbed = s.disturbed → t.unstable = s.unstable := by
    rintro u rfl hmode hnwr hin hd
    have hnow : u.now = s.now := by rw [State.now, hin]; rfl
    have hbusy : u.busy = true := by simpa [State.busy] using ht
    have hdist : u.tick.disturbed = (s.disturbed || writesBelow s.nwr s.now.insert) := by
      simp [State.hits, hbusy, hmode, hm, hnwr, hnow, hd]
    rw [State.unstable, State.unstable, hleft, writesAhead_now hr, hdist, State.tick_nwr,
      State.tick_inputs, hnwr, hin, Bool.or_assoc]
  rcases step_cases h with ⟨h1, -⟩ | ⟨-, h1, -⟩ | ⟨-, -, e⟩ | ⟨-, -, e⟩ | ⟨-, -, -, rfl⟩ |
    ⟨-, -, -, rfl⟩
  · rw [hr] at h1
    exact nomatch h1
  · exact absurd h1 hb
  · exact hkeep _ e rfl rfl rfl rfl
  · exact hkeep _ e rfl rfl rfl rfl
  · exact absurd rfl ht
  · exact absurd rfl ht

/-- The accept step of TEST: the new TEST is disturbed when a write below `NW` comes at one of its
edges, the accept step's own included (R164). -/
theorem unstable_accept {s : State} (hr : s.now.rst = false) :
    s.acceptTest.tick.unstable = writesAhead s.now.nw (testSteps s.now.k s.now.nw) s.inputs := by
  have hbusy : s.acceptTest.busy = true := by
    rcases nxt_test_cases 0 0 s.opK s.opNW with ⟨-, e⟩ | ⟨-, -, e⟩ | ⟨-, -, e⟩ <;>
      (rw [State.busy, show s.acceptTest.st = _ from e]; rfl)
  have hdist : s.acceptTest.tick.disturbed = writesBelow s.now.nw s.now.insert := by
    rw [State.tick_disturbed, State.hits, hbusy]
    rfl
  have hleft : testSteps s.now.k s.now.nw = s.acceptTest.tick.testStepsLeft + 1 := by
    rw [testStepsLeft_enterWord (s := s.acceptTest.tick) rfl rfl]
    have hz : (s.now.nw - 0).toNat = s.now.nw.toNat := by simp
    show _ = (s.now.nw - 0).toNat * (s.now.k.toNat + 1) + 1 + 1
    rw [hz]
    rfl
  rw [hleft, writesAhead_now hr, State.unstable, hdist]
  rfl

end Sys2Proof.Machine
end

