-- ==== Sys2Proof/Laws/Memory.lean ====
section
/-!
SUPPORT. The array: what a read gives after a write, and that every operation keeps the canonical
form (log 1).
-/

namespace Sys2Proof.Machine

theorem Memory.read?_write_same (m : Memory) (a : Nat) (x : Byte) :
    Memory.read? (Memory.write m a x) a = some x := by
  induction m with
  | nil => simp [Memory.write, Memory.read?]
  | cons c rest ih =>
    simp only [Memory.write]
    split
    · simp [Memory.read?]
    · split
      · simp [Memory.read?]
      · rename_i h1 h2
        have : ¬ c.1 = a := by omega
        simp [Memory.read?, this, ih]

theorem Memory.read?_write_other (m : Memory) (a b : Nat) (x : Byte) (h : b ≠ a) :
    Memory.read? (Memory.write m a x) b = Memory.read? m b := by
  have h' : ¬ a = b := fun e => h e.symm
  induction m with
  | nil => simp [Memory.write, Memory.read?, h']
  | cons c rest ih =>
    simp only [Memory.write]
    split
    · simp [Memory.read?, h']
    · split
      · rename_i h1 h2
        subst h2
        simp [Memory.read?, h']
      · simp only [Memory.read?, ih]

/-- A write keeps the keys strictly rising. -/
theorem Memory.risingFrom_write (m : Memory) (lo a : Nat) (x : Byte) (hlo : lo ≤ a)
    (h : Memory.risingFrom lo m = true) : Memory.risingFrom lo (Memory.write m a x) = true := by
  induction m generalizing lo with
  | nil => simp [Memory.write, Memory.risingFrom, hlo]
  | cons c rest ih =>
    simp only [Memory.risingFrom, Bool.and_eq_true, decide_eq_true_eq] at h
    simp only [Memory.write]
    split
    · rename_i h1
      simp only [Memory.risingFrom, Bool.and_eq_true, decide_eq_true_eq]
      exact ⟨hlo, by omega, h.2⟩
    · split
      · rename_i h1 h2
        subst h2
        simp only [Memory.risingFrom, Bool.and_eq_true, decide_eq_true_eq]
        exact ⟨hlo, h.2⟩
      · simp only [Memory.risingFrom, Bool.and_eq_true, decide_eq_true_eq]
        exact ⟨h.1, ih (c.1 + 1) (by omega) h.2⟩

/-- A write inside the address space keeps every key inside it. -/
theorem Memory.all_write (m : Memory) (a : Nat) (x : Byte) (ha : a < cellLimit)
    (h : m.all (fun c => decide (c.1 < cellLimit)) = true) :
    (Memory.write m a x).all (fun c => decide (c.1 < cellLimit)) = true := by
  induction m with
  | nil => simp [Memory.write, ha]
  | cons c rest ih =>
    simp only [List.all_cons, Bool.and_eq_true, decide_eq_true_eq] at h
    simp only [Memory.write]
    split
    · simp only [List.all_cons, Bool.and_eq_true, decide_eq_true_eq]
      exact ⟨ha, h⟩
    · split
      · simp only [List.all_cons, Bool.and_eq_true, decide_eq_true_eq]
        exact ⟨ha, h.2⟩
      · simp only [List.all_cons, Bool.and_eq_true, decide_eq_true_eq]
        exact ⟨h.1, ih h.2⟩

/-- Writing one cell keeps the canonical form. -/
theorem Memory.wf_write (m : Memory) (a : Nat) (x : Byte) (ha : a < cellLimit)
    (h : Memory.wf m = true) : Memory.wf (Memory.write m a x) = true := by
  simp only [Memory.wf, Bool.and_eq_true] at h ⊢
  exact ⟨Memory.risingFrom_write m 0 a x (Nat.zero_le a) h.1, Memory.all_write m a x ha h.2⟩

theorem cellKey_lt (i : Word) (b : Nat) (hb : b < 8) : cellKey i b < cellLimit := by
  have := i.isLt
  simp only [cellKey, cellLimit]
  omega

theorem Memory.wf_writeLanes (m : Memory) (i v : Word) (n : Nat) (hn : n ≤ 8)
    (h : Memory.wf m = true) : Memory.wf (Memory.writeLanes m i v n) = true := by
  induction n with
  | zero => exact h
  | succ n ih => exact Memory.wf_write _ _ _ (cellKey_lt i n (by omega)) (ih (by omega))

/-- Writing a word keeps the canonical form. -/
theorem Memory.wf_writeWord (m : Memory) (i v : Word) (h : Memory.wf m = true) :
    Memory.wf (Memory.writeWord m i v) = true :=
  Memory.wf_writeLanes m i v 8 (Nat.le_refl 8) h

@[simp] theorem landWrite_none (m : Memory) : landWrite m none = m := rfl
@[simp] theorem landWrite_some (m : Memory) (i v : Word) :
    landWrite m (some (i, v)) = Memory.writeWord m i v := rfl
@[simp] theorem writesBelow_none (nw : Word) : writesBelow nw none = false := rfl
@[simp] theorem writesBelow_some (nw i v : Word) :
    writesBelow nw (some (i, v)) = decide (i.toNat < nw.toNat) := rfl

/-- The inserter's write keeps the canonical form. -/
theorem Memory.wf_landWrite (m : Memory) (e : Option (Word × Word)) (h : Memory.wf m = true) :
    Memory.wf (landWrite m e) = true := by
  cases e with
  | none => exact h
  | some e => exact Memory.wf_writeWord _ _ _ h

/-- The edge keeps the canonical form: its only write is the inserter's. -/
theorem State.wf_tick (s : State) (h : Memory.wf s.array = true) : Memory.wf s.tick.array = true :=
  Memory.wf_landWrite s.array s.now.insert h

/-- A key outside the lanes written reads as before. -/
theorem Memory.read?_writeLanes_other (m : Memory) (i v : Word) (n a : Nat)
    (h : ∀ b, b < n → a ≠ cellKey i b) :
    Memory.read? (Memory.writeLanes m i v n) a = Memory.read? m a := by
  induction n with
  | zero => rfl
  | succ n ih =>
    rw [Memory.writeLanes, Memory.read?_write_other _ _ _ _ (h n (by omega)),
      ih fun b hb => h b (by omega)]

/-- A lane written reads as the word's lane. -/
theorem Memory.read?_writeLanes_same (m : Memory) (i v : Word) (n b : Nat) (hb : b < n) :
    Memory.read? (Memory.writeLanes m i v n) (cellKey i b) = some (lane v b) := by
  induction n with
  | zero => omega
  | succ n ih =>
    rw [Memory.writeLanes]
    by_cases e : b = n
    · subst e
      exact Memory.read?_write_same _ _ _
    · rw [Memory.read?_write_other _ _ _ _ (by simp only [cellKey]; omega)]
      exact ih (by omega)

/-- Writing one word leaves every other word as it reads (spec/20_memory.md R50). -/
theorem Memory.readWord?_writeWord_other (m : Memory) (i j v : Word) (h : j ≠ i) :
    Memory.readWord? (Memory.writeWord m i v) j = Memory.readWord? m j := by
  have hn : j.toNat ≠ i.toNat := fun e => h (BitVec.eq_of_toNat_eq e)
  have key : ∀ b, b < 8 →
      Memory.read? (Memory.writeWord m i v) (cellKey j b) = Memory.read? m (cellKey j b) := by
    intro b hb
    refine Memory.read?_writeLanes_other m i v 8 _ fun b' hb' => ?_
    simp only [cellKey]
    omega
  simp only [Memory.readWord?, key _ (by omega : 0 < 8), key _ (by omega : 1 < 8),
    key _ (by omega : 2 < 8), key _ (by omega : 3 < 8), key _ (by omega : 4 < 8),
    key _ (by omega : 5 < 8), key _ (by omega : 6 < 8), key _ (by omega : 7 < 8)]

theorem lanes_append (v : Word) :
    lane v 7 ++ lane v 6 ++ lane v 5 ++ lane v 4 ++ lane v 3 ++ lane v 2 ++ lane v 1 ++ lane v 0
      = v := by
  apply BitVec.eq_of_getLsbD_eq
  intro k hk
  simp only [lane, BitVec.getLsbD_append, BitVec.getLsbD_extractLsb']
  interval_cases k <;> simp

/-- Reading the word just written gives it (spec/20_memory.md R52). -/
theorem Memory.readWord?_writeWord_same (m : Memory) (i v : Word) :
    Memory.readWord? (Memory.writeWord m i v) i = some v := by
  have key : ∀ b, b < 8 →
      Memory.read? (Memory.writeWord m i v) (cellKey i b) = some (lane v b) := fun b hb =>
    Memory.read?_writeLanes_same m i v 8 b hb
  simp only [Memory.readWord?, key _ (by omega : 0 < 8), key _ (by omega : 1 < 8),
    key _ (by omega : 2 < 8), key _ (by omega : 3 < 8), key _ (by omega : 4 < 8),
    key _ (by omega : 5 < 8), key _ (by omega : 6 < 8), key _ (by omega : 7 < 8)]
  exact congrArg some (lanes_append v)

/-- A write that is not below `nw` leaves every word below `nw` as it reads. -/
theorem Memory.readWord?_landWrite_below (m : Memory) (e : Option (Word × Word)) (nw i : Word)
    (he : writesBelow nw e = false) (hi : i.toNat < nw.toNat) :
    Memory.readWord? (landWrite m e) i = Memory.readWord? m i := by
  cases e with
  | none => rfl
  | some e =>
    have hn : ¬ e.1.toNat < nw.toNat := of_decide_eq_false he
    exact Memory.readWord?_writeWord_other m e.1 i e.2 fun h => hn (h ▸ hi)

end Sys2Proof.Machine
end

