-- ==== Sys2Proof/Laws/PerInstr.lean ====
section
/-!
SUPPORT. A statement made per instruction: the command word of an instruction lies in its own row of
spec/opcode_table.json, by the row's mask and match (spec/30_encoding.md R72).
-/

namespace Sys2Proof.Laws.Row

/-- The `match` column of the instruction's row (spec/30_encoding.md R72). -/
def rowMatch : Instr → CmdWord
  | .nop _ => 0x000
  | .eq64 _ => 0x040
  | .sel64 _ _ => 0x080
  | .shl64 _ => 0x0C0
  | .mask _ => 0x100
  | .test _ => 0x140
  | .rsv6 _ => 0x180
  | .rsv7 _ => 0x1C0

/-- `(CMD & mask) == match` for the instruction's own row (R72). -/
def Statement (i : Instr) : Prop := encode i &&& 0x1C0 = rowMatch i

theorem op_append (op : BitVec 3) (ct : BitVec 6) :
    (op ++ ct : CmdWord) &&& 0x1C0 = op ++ (0 : BitVec 6) := by
  revert op ct
  decide

theorem nop (ct : BitVec 6) : Statement (.nop ct) := op_append 0b000 ct
theorem eq64 (ct : BitVec 6) : Statement (.eq64 ct) := op_append 0b001 ct
theorem sel64 (ign : BitVec 5) (cond : BitVec 1) : Statement (.sel64 ign cond) :=
  op_append 0b010 (ign ++ cond)
theorem shl64 (amount : BitVec 6) : Statement (.shl64 amount) := op_append 0b011 amount
theorem mask (ct : BitVec 6) : Statement (.mask ct) := op_append 0b100 ct
theorem test (ct : BitVec 6) : Statement (.test ct) := op_append 0b101 ct
theorem rsv6 (ct : BitVec 6) : Statement (.rsv6 ct) := op_append 0b110 ct
theorem rsv7 (ct : BitVec 6) : Statement (.rsv7 ct) := op_append 0b111 ct

end Sys2Proof.Laws.Row
end

