-- ==== Sys2Proof/Tests/Slice0.lean ====
section
/-!
SUPPORT. Tests: expected results from spec/30_encoding.md R72, R79 and the vectors of
spec/95_test_vectors.md; then a witness for the hypotheses of each obligation that has some.
-/

namespace Sys2Proof.Tests

open Sys2Proof Sys2Proof.Machine

/-! ### Well-formedness: each check refuses an ill-formed term (R79: ignored bits 0) -/

theorem test_wf_refuses_nop : ¬ (Instr.nop 1).WellFormed := by decide
theorem test_wf_refuses_eq64 : ¬ (Instr.eq64 0b100000).WellFormed := by decide
theorem test_wf_refuses_sel64 : ¬ (Instr.sel64 0b00001 1).WellFormed := by decide
theorem test_wf_refuses_mask : ¬ (Instr.mask 2).WellFormed := by decide
theorem test_wf_refuses_test : ¬ (Instr.test 63).WellFormed := by decide
theorem test_wf_refuses_rsv6 : ¬ (Instr.rsv6 4).WellFormed := by decide
theorem test_wf_refuses_rsv7 : ¬ (Instr.rsv7 8).WellFormed := by decide
theorem test_wf_accepts_canonical :
    (Instr.nop 0).WellFormed ∧ (Instr.sel64 0 1).WellFormed ∧ (Instr.shl64 63).WellFormed := by decide

/-! ### Decoding: words written out bit by bit from R72, CMD[8:6] CMD[5:0] -/

theorem test_decode_nop : decode 0b000_000000 = .nop 0 := by decide
theorem test_decode_eq64 : decode 0b001_000000 = .eq64 0 := by decide
theorem test_decode_sel64_cond1 : decode 0b010_000001 = .sel64 0 1 := by decide
/-- section 2.2: `0x0BE` is `cond` = 0 with all ignored bits 1. -/
theorem test_decode_sel64_ignored : decode 0x0BE = .sel64 0b11111 0 := by decide
/-- section 2.3: amount 37 is `0x0E5`. -/
theorem test_decode_shl64 : decode 0b011_100101 = .shl64 37 := by decide
theorem test_decode_mask : decode 0b100_000000 = .mask 0 := by decide
theorem test_decode_test : decode 0b101_000000 = .test 0 := by decide
theorem test_decode_rsv6 : decode 0b110_000000 = .rsv6 0 := by decide
theorem test_decode_rsv7 : decode 0b111_111111 = .rsv7 63 := by decide
/-- section 2.5: the last word of each range and the first of the next. -/
theorem test_decode_range_edges :
    decode 0x03F = .nop 63 ∧ decode 0x0FF = .shl64 63 ∧ decode 0x100 = .mask 0 ∧
    decode 0x17F = .test 63 ∧ decode 0x1BF = .rsv6 63 ∧ decode 0x1C0 = .rsv7 0 := by decide
/-- R70: the port has 9 bits. -/
theorem test_decode_refuses_wide : decodeTableWord 16 0x200 = none := by decide
theorem test_decodeTableWord_shl64 : decodeTableWord 16 0x0FF = some (.shl64 63) := by decide
/-- R79: the canonical words. -/
theorem test_encode_canonical :
    encode (.nop 0) = 0x000 ∧ encode (.eq64 0) = 0x040 ∧ encode (.sel64 0 1) = 0x081 ∧
    encode (.shl64 37) = 0x0E5 ∧ encode (.mask 0) = 0x100 ∧ encode (.test 0) = 0x140 := by decide

/-! ### The units: spec/95_test_vectors.md sections 2.1 to 2.3 and 3.2 -/

theorem test_eq64_boundaries :
    eq64 0 0 = 1 ∧ eq64 0xFFFFFFFFFFFFFFFF 0xFFFFFFFFFFFFFFFF = 1 ∧ eq64 0 1 = 0 ∧
    eq64 0x8000000000000000 0 = 0 ∧ eq64 0x8000000000000000 0x7FFFFFFFFFFFFFFF = 0 := by decide
theorem test_select64_vectors :
    select64 1 0xAAAAAAAAAAAAAAAA 0x5555555555555555 = 0xAAAAAAAAAAAAAAAA ∧
    select64 0 0xAAAAAAAAAAAAAAAA 0x5555555555555555 = 0x5555555555555555 := by decide
theorem test_shl64_vectors :
    shl64 1 37 = 0x0000002000000000 ∧ shl64 0x0123456789ABCDEF 4 = 0x123456789ABCDEF0 ∧
    shl64 0xFFFFFFFFFFFFFFFF 63 = 0x8000000000000000 ∧ shl64 0x8000000000000000 1 = 0 := by decide
/-- section 2.3, stage table of `shl64(1, 37)`: after the first stage and after the fourth. -/
theorem test_shl64_stages :
    shlAfter 1 1 37 = (0x0000000100000000, 5) ∧ shlAfter 4 1 37 = (0x0000001000000000, 1) := by decide

/-- Element hB of section 3.1. -/
def hB : HashResult := ⟨5, 70, 64, 127⟩

/-- The fixture `Position(h, j) = h[j mod 4]` of section 3.1. -/
def toyPosition (h : HashResult) (j : Word) : Word :=
  match j.toNat % 4 with
  | 0 => h.h0
  | 1 => h.h1
  | 2 => h.h2
  | _ => h.h3

theorem test_buildMask_word1 : buildMask toyPosition hB 4 1 = 0x8000000000000041 := by decide
theorem test_buildMask_word0 : buildMask toyPosition hB 4 0 = 0x0000000000000020 := by decide
theorem test_buildMask_largest_position :
    buildMask toyPosition ⟨0xFFFFFFFFFFFFFFFF, 0, 0, 0⟩ 1 0x03FFFFFFFFFFFFFF = 0x8000000000000000 := by
  decide
/-- vectors T1 and T3 of section 3.3. -/
theorem test_testResult_present :
    testResult toyPosition hB 4 2 (fun i => if i = 0 then 0x20 else 0x8000000000000041) = 1 := by decide
theorem test_testResult_absent :
    testResult toyPosition hB 4 2 (fun i => if i = 0 then 0x20 else 0x8000000000000001) = 0 := by decide

/-! ### Steps -/

/-- The next state of an outcome, if it is one. -/
def next? : Host.Outcome State Fault Refusal → Option State
  | .next s => some s
  | .fault _ => none
  | .refused _ => none

/-- After reset, with the record `x` for the coming edge. -/
def idleWith (x : Inputs) : State := { State.reset with inputs := [x] }

/-- The collaborator's answers for hB (section 3.1) and for the one-round element of vector T8. -/
def answers : List PosEntry :=
  [⟨hB, 0, 5⟩, ⟨hB, 1, 70⟩, ⟨hB, 2, 64⟩, ⟨hB, 3, 127⟩, ⟨⟨63, 0, 0, 0⟩, 0, 63⟩]

/-- The array of vector T3: word 0 is `0x20`, word 1 is `0x8000000000000001`. -/
def arrayT3 : Memory := Memory.writeWord (Memory.writeWord [] 0 0x20) 1 0x8000000000000001

/-- Program P1, step 3. -/
theorem test_step_eq64 :
    (next? (step (idleWith { Inputs.quiet with
      cmd := 0x040, a := 0x0123456789ABCDEF, b := 0x0123456789ABCDEF }))).map
        (fun t => (t.r, t.done)) = some (1, true) := by decide
/-- Program P1, step 9: the non-canonical `0x07F`. -/
theorem test_step_eq64_noncanonical :
    (next? (step (idleWith { Inputs.quiet with cmd := 0x07F, a := 5, b := 4 }))).map
        (fun t => (t.r, t.done)) = some (0, true) := by decide
/-- Program P1, steps 4 and 5. -/
theorem test_step_sel64_one :
    (next? (step (idleWith { Inputs.quiet with
      cmd := 0x081, a := 0xAAAAAAAAAAAAAAAA, b := 0x5555555555555555 }))).map
        (fun t => t.r) = some 0xAAAAAAAAAAAAAAAA := by decide
theorem test_step_sel64_zero :
    (next? (step (idleWith { Inputs.quiet with
      cmd := 0x080, a := 0xAAAAAAAAAAAAAAAA, b := 0x5555555555555555 }))).map
        (fun t => t.r) = some 0x5555555555555555 := by decide
/-- Program P1, steps 6 and 10. -/
theorem test_step_shl64 :
    (next? (step (idleWith { Inputs.quiet with cmd := 0x0E5, a := 1 }))).map
        (fun t => (t.r, t.done)) = some (0x0000002000000000, true) := by decide
theorem test_step_shl64_top :
    (next? (step (idleWith { Inputs.quiet with cmd := 0x0FF, a := 0xFFFFFFFFFFFFFFFF }))).map
        (fun t => t.r) = some 0x8000000000000000 := by decide
/-- Section 2.4: NOP with ignored bits 1, and reserved words, keep `R` and `DONE`. -/
theorem test_step_nop :
    (next? (step { idleWith { Inputs.quiet with cmd := 0x03F } with
      r := 0x0000002000000000, done := true })).map
        (fun t => (t.r, t.done)) = some (0x0000002000000000, true) := by decide
theorem test_step_rsv6 :
    (next? (step (idleWith { Inputs.quiet with cmd := 0x180, a := 3 }))).map
        (fun t => (t.r, t.done)) = some (0, false) := by decide
theorem test_step_rsv7 :
    (next? (step { idleWith { Inputs.quiet with cmd := 0x1FF, a := 3, b := 4 } with
      r := 7, done := true })).map (fun t => (t.r, t.done)) = some (7, true) := by decide
/-- Program P2, step 2: the accept step of `MASK 1`. -/
theorem test_step_mask_accept :
    (next? (step (idleWith { Inputs.quiet with cmd := 0x100, a := 1, h := hB, k := 4 }))).map
        (fun t => ((t.st, t.done, t.mode), (t.kr, t.i, t.j, t.m))) =
      some ((.round, false, .mask), (4, 1, 0, 0)) := by decide
/-- `K` = 0: MASK goes straight to FIN (section 3.2, fourth row). -/
theorem test_step_mask_k0 :
    (next? (step (idleWith { Inputs.quiet with cmd := 0x100, h := hB }))).map (fun t => t.st) =
      some .fin := by decide
/-- Program P3, step 2: the accept step of TEST. -/
theorem test_step_test_accept :
    (next? (step { idleWith { Inputs.quiet with cmd := 0x140, h := hB, k := 4, nw := 2 } with
      v := 0x20, i := 9 })).map
        (fun t => ((t.st, t.done, t.mode), (t.kr, t.nwr, t.i, t.v))) =
      some ((.round, false, .test), (4, 2, 0, 0)) := by decide
/-- `NW` = 0 goes to FIN even when `K` = 0; `K` = 0 alone goes to WORD (R122, R131). -/
theorem test_step_test_empty :
    (next? (step (idleWith { Inputs.quiet with cmd := 0x140, h := hB }))).map (fun t => t.st) =
      some .fin ∧
    (next? (step (idleWith { Inputs.quiet with cmd := 0x140, nw := 2 }))).map (fun t => t.st) =
      some .word := by decide

/-- Program P3 before step 11: the last round of word 1. -/
def beforeLastRound : State :=
  { State.reset with
    st := .round, mode := .test, hr := hB, kr := 4, nwr := 2, i := 1, j := 3, m := 0x41
    array := arrayT3, positions := answers }

/-- Program P4 (vector T3) before step 12. -/
def beforeLastRead : State :=
  { beforeLastRound with st := .word, j := 4, m := 0x8000000000000041 }

/-- Program P3, step 11: `Pos(3)`, position 127. -/
theorem test_round_step :
    (next? (step beforeLastRound)).map (fun t => (t.st, t.j, t.m)) =
      some (.word, 4, 0x8000000000000041) ∧ beforeLastRound.event = .pos 3 := by decide
/-- Program P5, step 3: a command while busy is lost. -/
theorem test_round_step_ignores_command :
    (next? (step { beforeLastRound with
      inputs := [{ Inputs.quiet with cmd := 0x040, a := 9, b := 9 }], r := 5 })).map
        (fun t => (t.st, t.r, t.done)) = some (.word, 5, false) := by decide
/-- Program P4, step 12. -/
theorem test_word_step :
    (next? (step beforeLastRead)).map (fun t => (t.st, t.i, t.j, t.m, t.v)) =
      some (.fin, 2, 0, 0, 0x40) ∧ beforeLastRead.event = .read 1 := by decide
/-- Program P4, step 13: `eq64(0x40, 0) = 0`; and P3, step 13. -/
theorem test_fin_step_test :
    (next? (step { beforeLastRead with st := .fin, v := 0x40 })).map
      (fun t => (t.st, t.done, t.r)) = some (.idle, true, 0) ∧
    (next? (step { beforeLastRead with st := .fin, v := 0 })).map (fun t => t.r) = some 1 := by decide
/-- Program P2, step 7. -/
theorem test_fin_step_mask :
    (next? (step { beforeLastRead with st := .fin, mode := .mask })).map
      (fun t => (t.st, t.done, t.r)) = some (.idle, true, 0x8000000000000041) := by decide
/-- Section 3.4: reset from idle; the EQ64 on the port is not executed. -/
theorem test_reset_step :
    (next? (step { idleWith { Inputs.quiet with rst := true, cmd := 0x040 } with
      r := 5, done := true })).map (fun t => (t.st, t.done)) = some (.idle, false) := by decide
/-- Section 3.4: outputs in ROUND and in WORD. -/
theorem test_outputs :
    ({ beforeLastRound with j := 2 } : State).outputs =
      ⟨0, false, true, true, hB, 2, false, 0⟩ ∧
    beforeLastRead.outputs = ⟨0, false, true, false, ⟨0, 0, 0, 0⟩, 0, true, 1⟩ := by decide
/-- R51, R164: an inserter's write under a TEST lands, and marks the TEST. -/
theorem test_insert_disturbs :
    (next? (step { beforeLastRound with
      inputs := [{ Inputs.quiet with insert := some (1, 7) }] })).map
        (fun t => (Memory.readWord? t.array 1, t.disturbed)) = some (some 7, true) := by decide
/-- An inserter's write while CORE is idle lands and disturbs nothing. -/
theorem test_insert_idle :
    (next? (step (idleWith { Inputs.quiet with insert := some (3, 0x8000000000000001) }))).map
        (fun t => (Memory.readWord? t.array 3, Memory.readWord? t.array 2, t.disturbed)) =
      some (some 0x8000000000000001, none, false) := by decide
/-- The instruction placed for the next step is what the step runs. -/
theorem test_withFetchWord :
    (next? (step ({ beforeLastRound with inputs := [] }.withFetchWord 16 0x140))).map
      (fun t => (t.st, t.mode)) = some (.fin, .test) := by decide

/-! ### The listing of program P1 and the assembler's refusals (R79) -/

/-- No directive yet. -/
def noSettings : Settings := ⟨⟨0, 0, 0, 0⟩, 0, 0⟩

theorem test_listing_commands :
    (match assemble noSettings [.nop, .sel64 1 3 4, .shl64 1 37] with
      | .ok l => l.map (fun x => (x.cmd, x.a, x.b))
      | .error _ => []) = [(0x000, 0, 0), (0x081, 3, 4), (0x0E5, 1, 0)] := by decide
theorem test_listing_refuses :
    (match assemble noSettings [.sel64 2 0 0] with | .error e => some e | .ok _ => none) =
      some AsmError.condRange ∧
    (match assemble noSettings [.shl64 0 64] with | .error e => some e | .ok _ => none) =
      some AsmError.amountRange ∧
    (match assemble noSettings [.mask (2 ^ 64)] with | .error e => some e | .ok _ => none) =
      some AsmError.wordRange := by decide
/-- Both edges of the amount and of the condition. -/
theorem test_listing_edges :
    (match assemble noSettings [.shl64 1 0, .shl64 1 63, .sel64 0 0 0] with
      | .ok l => l.map (fun x => x.cmd)
      | .error _ => []) = [0x0C0, 0x0FF, 0x080] := by decide
/-- `.k 1`, `.nw 1`, TEST: one record and the implied NOPs, `1*(1+1) + 2` in all. -/
theorem test_listing_implied_nops :
    (match assemble noSettings [.dirK 1, .dirNW 1, .test] with
      | .ok l => l.map (fun x => (x.cmd, x.k, x.nw))
      | .error _ => []) = [(0x140, 1, 1), (0, 1, 1), (0, 1, 1), (0, 1, 1)] := by decide
theorem test_listing_print : (Line.sel64 1 2 3).print = "SEL64 1, 2, 3" := by decide

/-! ### Witnesses: the hypotheses of each obligation can be met together -/

theorem witness_accepts_eq64 :
    Accepts (idleWith { Inputs.quiet with cmd := 0x040, a := 5, b := 5 }) (.eq64 0) :=
  ⟨rfl, rfl, by decide⟩
theorem witness_accepts_sel64 :
    Accepts (idleWith { Inputs.quiet with cmd := 0x081, a := 5 }) (.sel64 0 1) :=
  ⟨rfl, rfl, by decide⟩
theorem witness_accepts_shl64 :
    Accepts (idleWith { Inputs.quiet with cmd := 0x0FF, a := 1 }) (.shl64 63) :=
  ⟨rfl, rfl, by decide⟩
theorem witness_accepts_nop : Accepts (idleWith { Inputs.quiet with cmd := 0x03F }) (.nop 63) :=
  ⟨rfl, rfl, by decide⟩
theorem witness_accepts_rsv6 : Accepts (idleWith { Inputs.quiet with cmd := 0x180 }) (.rsv6 0) :=
  ⟨rfl, rfl, by decide⟩
theorem witness_accepts_rsv7 : Accepts (idleWith { Inputs.quiet with cmd := 0x1C0 }) (.rsv7 0) :=
  ⟨rfl, rfl, by decide⟩

/-- MASK of word 1 for element hB, `K` = 4, with a reset and other commands after its six edges. -/
def maskStart : State :=
  { idleWith { Inputs.quiet with cmd := 0x100, a := 1, h := hB, k := 4 } with positions := answers }

/-- TEST of vector T8: one round, one word, which answers `0x8000000000000000`. -/
def testStart : State :=
  { idleWith { Inputs.quiet with cmd := 0x140, h := ⟨63, 0, 0, 0⟩, k := 1, nw := 1 } with
    positions := answers, array := Memory.writeWord [] 0 0x8000000000000000 }

theorem noReset_single (x : Inputs) (s : State) (n : Nat) (hx : x.rst = false) (hs : s.inputs = [x]) :
    NoReset n s := by
  intro y hy
  rw [hs] at hy
  rw [List.mem_singleton.1 (List.mem_of_mem_take hy), hx]

/-- Hypotheses of the statements about MASK (R111, R113, R117). -/
theorem witness_mask : Accepts maskStart (.mask 0) ∧ NoReset (maskSteps maskStart.now.k) maskStart :=
  ⟨⟨rfl, rfl, by decide⟩, noReset_single _ _ _ rfl rfl⟩

/-- Hypotheses of the statements about TEST (R121, R122, R128, R57, R129). -/
theorem witness_test :
    Accepts testStart (.test 0) ∧
    NoReset (testSteps testStart.now.k testStart.now.nw) testStart ∧
    ArrayStable (testSteps testStart.now.k testStart.now.nw) testStart.now.nw testStart ∧
    ArrayAnswers testStart testStart.now.nw ∧
    ReferenceTest testStart.position testStart.now.h testStart.now.k testStart.word ∧
    RoundsPositive testStart.now.k testStart.now.nw := by
  refine ⟨⟨rfl, rfl, by decide⟩, noReset_single _ _ _ rfl rfl, ?_, ?_, ?_, by decide, by decide⟩
  · intro x hx e he
    rw [List.mem_singleton.1 (List.mem_of_mem_take hx)] at he
    cases he
  · intro i hi
    have hi1 : i.toNat < 1 := hi
    have : i = 0 := BitVec.eq_of_toNat_eq (by simpa using hi1)
    subst this
    decide
  · intro j hj
    have hj1 : j < 1 := hj
    have : j = 0 := by omega
    subst this
    decide

/-- R153: a state that starts a TEST. -/
theorem witness_startsTest : StartsTest testStart := ⟨⟨0, witness_test.1⟩, witness_test.2.1⟩

/-- Hypotheses of R131's three rows: `K` = 0 with one word, `NW` = 0, and MASK with `K` = 0. -/
theorem witness_empty_loops :
    (Accepts (idleWith { Inputs.quiet with cmd := 0x140, nw := 1 }) (.test 0) ∧
      NoReset 3 (idleWith { Inputs.quiet with cmd := 0x140, nw := 1 })) ∧
    (Accepts (idleWith { Inputs.quiet with cmd := 0x140, k := 4 }) (.test 0) ∧
      NoReset 2 (idleWith { Inputs.quiet with cmd := 0x140, k := 4 })) ∧
    (Accepts (idleWith { Inputs.quiet with cmd := 0x100, a := 3 }) (.mask 0) ∧
      NoReset 2 (idleWith { Inputs.quiet with cmd := 0x100, a := 3 })) :=
  ⟨⟨⟨rfl, rfl, by decide⟩, noReset_single _ _ _ rfl rfl⟩,
   ⟨⟨rfl, rfl, by decide⟩, noReset_single _ _ _ rfl rfl⟩,
   ⟨⟨rfl, rfl, by decide⟩, noReset_single _ _ _ rfl rfl⟩⟩

/-- R127: the collaborator's range contract on fixture F (`m` = 128, `NW` = 2, `K` = 4). -/
theorem witness_positionInRange : PositionInRange toyPosition hB 4 2 128 := by
  refine ⟨fun j hj => ?_, by decide⟩
  have hj4 : j < 4 := hj
  interval_cases j <;> decide

/-- R130: position 200 is out of range for two words (vector T10), another collaborator answers 5 in
its place, and the result with that one is 1. -/
theorem witness_outOfRange :
    (2 : Word).toNat ≤ (posWord 200).toNat ∧
    (∀ j < (4 : Word).toNat,
      toyPosition ⟨5, 200, 64, 127⟩ (BitVec.ofNat 64 j) =
        (fun h j => if j = 1 then 5 else toyPosition h j) ⟨5, 200, 64, 127⟩ (BitVec.ofNat 64 j) ∨
      (2 : Word).toNat ≤ (posWord (toyPosition ⟨5, 200, 64, 127⟩ (BitVec.ofNat 64 j))).toNat) ∧
    testResult (fun h j => if j = 1 then 5 else toyPosition h j) ⟨5, 200, 64, 127⟩ 4 2
      (fun i => if i = 0 then 0x20 else 0x8000000000000001) = 1 := by
  refine ⟨by decide, fun j hj => ?_, by decide⟩
  have hj4 : j < 4 := hj
  interval_cases j <;> decide

/-- R110: a word index of 2^58. -/
theorem witness_largeWordIndex : 2 ^ 58 ≤ (0x0400000000000000 : Word).toNat := by decide

/-- R114, R78: a ROUND step without reset. -/
theorem witness_round :
    beforeLastRound.st = .round ∧ beforeLastRound.now.rst = false ∧ beforeLastRound.busy = true := by
  decide

/-- R124: a WORD step with a stable, answering array. -/
theorem witness_word :
    beforeLastRead.st = .word ∧ beforeLastRead.mode = .test ∧ beforeLastRead.now.rst = false ∧
    beforeLastRead.unstable = false ∧
    Memory.readWord? beforeLastRead.array beforeLastRead.i = some 0x8000000000000001 := by decide

/-- A read that the memory cannot answer; reads of an array written earlier, at the read's edge, and at
the FIN edge after it. -/
theorem witness_unanswered :
    Memory.readWord? ({ beforeLastRead with array := [] } : State).array 1 = none ∧
    ({ beforeLastRead with disturbed := true } : State).unstable = true ∧
    ({ beforeLastRead with
      inputs := [{ Inputs.quiet with insert := some (1, 0) }] } : State).unstable = true ∧
    ({ beforeLastRead with
      inputs := [Inputs.quiet, { Inputs.quiet with insert := some (0, 5) }] } : State).unstable = true := by
  decide

/-- R164: the writes that forbid nothing: after FIN, at or above `NWR`, after a reset that abandons the
TEST. -/
theorem test_unstable_window :
    ({ beforeLastRead with
      inputs := [Inputs.quiet, Inputs.quiet, { Inputs.quiet with insert := some (0, 5) }] } :
        State).unstable = false ∧
    ({ beforeLastRead with
      inputs := [{ Inputs.quiet with insert := some (2, 5) }] } : State).unstable = false ∧
    ({ beforeLastRead with
      inputs := [Inputs.quiet, { Inputs.quiet with rst := true, insert := some (0, 5) }] } :
        State).unstable = false := by decide

/-- TEST of vector T8 with the inserter's write at its FIN edge, the last of the four. -/
def testDisturbed : State :=
  { testStart with
    inputs := [testStart.now, Inputs.quiet, Inputs.quiet, { Inputs.quiet with insert := some (0, 1) }] }

/-- R56: such a TEST, and the WORD step in it. -/
theorem witness_forbiddenWrite :
    Accepts testDisturbed (.test 0) ∧
    NoReset (testSteps testDisturbed.now.k testDisturbed.now.nw) testDisturbed ∧
    (∃ x ∈ testDisturbed.inputs.take (testSteps testDisturbed.now.k testDisturbed.now.nw),
      writesBelow testDisturbed.now.nw x.insert = true) ∧
    (∃ u, run 2 testDisturbed = .next u ∧ u.st = .word) ∧
    2 < testSteps testDisturbed.now.k testDisturbed.now.nw := by
  refine ⟨⟨rfl, rfl, by decide⟩, ?_, by decide, ⟨_, rfl, by decide⟩, by decide⟩
  unfold NoReset
  decide

/-- R116, R126: the two FIN steps. -/
theorem witness_fin :
    (({ beforeLastRead with st := .fin, mode := .mask } : State).mode = .mask ∧
      ({ beforeLastRead with st := .fin, mode := .mask } : State).now.rst = false) ∧
    (({ beforeLastRead with st := .fin } : State).mode = .test ∧
      ({ beforeLastRead with st := .fin } : State).now.rst = false) := by decide

/-- R160: a reset step under a running TEST. -/
theorem witness_reset :
    ({ beforeLastRound with inputs := [{ Inputs.quiet with rst := true }] } : State).now.rst = true := by
  decide

/-- R75: an accepted command and its next state. -/
theorem witness_stepRuns :
    ∃ t, Accepts (idleWith { Inputs.quiet with cmd := 0x040 }) (.eq64 0) ∧
      exec (.eq64 0) (idleWith { Inputs.quiet with cmd := 0x040 }) = .next t :=
  ⟨_, ⟨rfl, rfl, by decide⟩, rfl⟩

/-- R77: the three ways a record need not be read whole: reset, a running operation, and a command
that does not sample `B`. -/
theorem witness_sampled :
    SampleAgree { Inputs.quiet with cmd := 0x0C1, a := 3, b := 1 }
      { Inputs.quiet with cmd := 0x0C1, a := 3, b := 2 } ∧
    SampleAgree { Inputs.quiet with cmd := 0x000, a := 3 } { Inputs.quiet with cmd := 0x1FF } ∧
    beforeLastRound.st ≠ .idle ∧ ({ Inputs.quiet with rst := true } : Inputs).rst = true := by
  refine ⟨?_, ?_, by decide, rfl⟩
  · show _ ∧ _
    decide
  · show _ ∧ _
    decide

/-- R21, R22: a step without reset that answers. -/
theorem witness_resultAndDone :
    ∃ t, maskStart.now.rst = false ∧ step maskStart = .next t := ⟨_, rfl, rfl⟩

/-- R51, R164: a step with the inserter's write under a TEST that goes on. -/
theorem witness_insert :
    ∃ t, ({ beforeLastRound with
        inputs := [{ Inputs.quiet with insert := some (1, 7) }] } : State).now.insert = some (1, 7) ∧
      step { beforeLastRound with inputs := [{ Inputs.quiet with insert := some (1, 7) }] } = .next t ∧
      t.st ≠ .idle ∧ t.mode = .test ∧ (1 : Word).toNat < t.nwr.toNat :=
  ⟨_, rfl, rfl, by decide, by decide, by decide⟩

/-- The invariants' hypotheses, in a running TEST and its next step. -/
theorem witness_invariants :
    ∃ t, ControlInv { beforeLastRound with i := 0, m := 0x20 } ∧
      MaskInv { beforeLastRound with i := 0, m := 0x20 } ∧
      AggInv { beforeLastRound with i := 0, m := 0x20 } ∧
      MemoryInv { beforeLastRound with i := 0, m := 0x20 } ∧
      step { beforeLastRound with i := 0, m := 0x20 } = .next t := by
  refine ⟨_, ?_, ?_, fun _ _ _ _ => rfl, ?_, rfl⟩
  · unfold ControlInv
    decide
  · unfold MaskInv
    decide
  · unfold MemoryInv
    decide

/-- R115's second part: a state with `J` = `KR`. -/
theorem witness_maskComplete :
    MaskInv beforeLastRead ∧ beforeLastRead.st ≠ .idle ∧ beforeLastRead.j = beforeLastRead.kr := by
  refine ⟨?_, by decide, by decide⟩
  unfold MaskInv
  decide

/-- R125's second part: FIN of a TEST over no words, and of one over one word. -/
theorem witness_aggComplete :
    ControlInv { beforeLastRead with st := .fin, nwr := 1, v := 0 } ∧
    AggInv { beforeLastRead with st := .fin, nwr := 1, v := 0 } ∧
    ArrayAnswers { beforeLastRead with st := .fin, nwr := 1, v := 0 } 1 := by
  refine ⟨?_, ?_, ?_⟩
  · unfold ControlInv
    decide
  · intro _ _ _ _
    decide
  · intro i hi
    have hi1 : i.toNat < 1 := hi
    have : i = 0 := BitVec.eq_of_toNat_eq (by simpa using hi1)
    subst this
    decide

/-- R10: two TESTs of different elements on different arrays, with the same public data. -/
theorem witness_publicEq :
    PublicEq beforeLastRound
      { beforeLastRound with hr := ⟨9, 70, 100, 3⟩, m := 0, v := 5, r := 1, array := [] } :=
  ⟨rfl, fun _ => ⟨rfl, rfl, rfl⟩, fun _ _ => ⟨rfl, rfl⟩, .nil⟩

/-- R43: two IDLE states that differ in every hidden register, with a TEST to come. -/
theorem witness_liveEq :
    LiveEq testStart { testStart with r := 5, done := true, kr := 3, i := 7, v := 9, mode := .test } :=
  ⟨rfl, rfl, rfl, rfl, rfl, rfl, fun h => absurd rfl h, fun h => absurd rfl h⟩

/-- R163: an idle machine with a reserved word on the port. -/
theorem witness_idle :
    StartsIdle 3 (idleWith { Inputs.quiet with cmd := 0x1FF }) ∧
    ∀ x ∈ (idleWith { Inputs.quiet with cmd := 0x1FF }).inputs.take 3,
      commandEvent (decode x.cmd) = .idle := by
  refine ⟨⟨rfl, noReset_single _ _ _ rfl rfl⟩, fun x hx => ?_⟩
  rw [List.mem_singleton.1 (List.mem_of_mem_take hx)]
  decide

end Sys2Proof.Tests
end

/-!
Noninterference of CORE (spec/00_scope.md R10, spec/10_state.md R43): two states that agree on the
public data, or on the live registers, keep agreeing under every step. Each relation is carried through
what `step` is made of: the reset step, the commands, the sequencer's steps and the clock edge.
-/

namespace Sys2Proof.Machine

/-! ### What a step is made of -/

/-- A step is one of three register writes, chosen by `rst` and `ST`, and then the edge
(spec/30_encoding.md R75). Stated by implications, so that two steps with the same `rst` and `ST` are
compared write by write. -/
theorem step_writes {s s' : State} (h : step s = .next s') :
    ∃ u, s' = u.tick ∧
      (s.now.rst = true → u = s.resetStep) ∧
      (s.now.rst = false → s.st = .idle → exec (decode s.now.cmd) s = .next u) ∧
      (s.now.rst = false → s.st ≠ .idle → u = s.busyStep) := by
  rcases step_cases h with ⟨hr, rfl⟩ | ⟨hr, hst, u, he, rfl⟩ | ⟨hr, hst, rfl⟩ | ⟨hr, hst, rfl⟩ |
    ⟨hr, hst, hm, rfl⟩ | ⟨hr, hst, hm, rfl⟩
  · exact ⟨_, rfl, by simp [hr]⟩
  · exact ⟨u, rfl, by simp [hr, hst, he]⟩
  · exact ⟨_, rfl, by simp [hr, hst, State.busyStep]⟩
  · exact ⟨_, rfl, by simp [hr, hst, State.busyStep]⟩
  · exact ⟨_, rfl, by simp [hr, hst, hm, State.busyStep, State.finStep]⟩
  · exact ⟨_, rfl, by simp [hr, hst, hm, State.busyStep, State.finStep]⟩

theorem State.busyStep_of_round {s : State} (h : s.st = .round) : s.busyStep = s.roundStep := by
  rw [State.busyStep, h]
theorem State.busyStep_of_word {s : State} (h : s.st = .word) : s.busyStep = s.wordStep := by
  rw [State.busyStep, h]
theorem State.busyStep_of_finMask {s : State} (h : s.st = .fin) (hm : s.mode = .mask) :
    s.busyStep = s.finMask := by
  rw [State.busyStep, h, State.finStep, hm]
theorem State.busyStep_of_finTest {s : State} (h : s.st = .fin) (hm : s.mode = .test) :
    s.busyStep = s.finTest := by
  rw [State.busyStep, h, State.finStep, hm]

/-- Every step answers a next state (spec/60_exceptions.md R140). -/
theorem exists_step_eq_next (s : State) : ∃ s', step s = .next s' := by
  have hexec : ∃ u, exec (decode s.now.cmd) s = .next u := by
    cases decode s.now.cmd <;> exact ⟨_, rfl⟩
  unfold step
  split
  · exact ⟨_, rfl⟩
  · split
    · obtain ⟨u, hu⟩ := hexec
      exact ⟨u.tick, by rw [hu, afterExec]⟩
    · exact ⟨_, rfl⟩

/-- `nxt` reads the word index and the word count in TEST mode only (spec/41_mask_builder.md R112). -/
theorem nxt_congr_of_test {md : Mode} {i i' j kr nwr nwr' : Word}
    (h : md = .test → i = i' ∧ nwr = nwr') : nxt md i j kr nwr = nxt md i' j kr nwr' := by
  cases md with
  | mask => exact nxt_mask_congr ..
  | test =>
    obtain ⟨rfl, rfl⟩ := h rfl
    rfl

/-- `nxt` enters WORD in TEST mode only (R112), so after it the mode alone says whether the registers of
TEST are in use. -/
theorem mode_eq_test_of_nxt {md : Mode} {i j kr nwr : Word}
    (h : md = .test ∨ nxt md i j kr nwr = .word) : md = .test := by
  cases md with
  | mask => rcases nxt_mask_cases i j kr nwr with ⟨-, e⟩ | ⟨-, e⟩ <;> simp [e] at h
  | test => rfl

theorem State.acceptMask_not_test_or_word (s : State) :
    ¬ (s.acceptMask.mode = .test ∨ s.acceptMask.st = .word) := by
  rw [State.acceptMask_mode, State.acceptMask_st]
  exact fun h => nomatch mode_eq_test_of_nxt h

/-! ### What a command does, by its operation code (spec/30_encoding.md R72) -/

/-- The event of the decode step as a function of the operation code (spec/00_scope.md R14). -/
def opcodeEvent (op : BitVec 3) : Event :=
  match op.toNat with
  | 1 => .single .eq64
  | 2 => .single .sel64
  | 3 => .single .shl64
  | 4 => .start .mask
  | 5 => .start .test
  | _ => .idle

theorem commandEvent_eq_opcodeEvent (i : Instr) : commandEvent i = opcodeEvent i.opcode := by
  cases i <;> rfl

theorem exec_of_opcode_mask {i : Instr} (h : i.opcode = 0b100) (s : State) :
    exec i s = .next s.acceptMask := by
  cases i with
  | mask ct => rfl
  | _ => simp [Instr.opcode] at h

theorem exec_of_opcode_test {i : Instr} (h : i.opcode = 0b101) (s : State) :
    exec i s = .next s.acceptTest := by
  cases i with
  | test ct => rfl
  | _ => simp [Instr.opcode] at h

/-- Only MASK and TEST start a multi-step operation: after any other command `ST` is what it was. -/
theorem exec_st_of_opcode_other {i : Instr} {s u : State} (hm : i.opcode ≠ 0b100)
    (ht : i.opcode ≠ 0b101) (h : exec i s = .next u) : u.st = s.st := by
  rcases exec_cases h with rfl | ⟨x, rfl⟩ | ⟨ct, rfl, -⟩ | ⟨ct, rfl, -⟩
  · rfl
  · rfl
  · exact absurd rfl hm
  · exact absurd rfl ht

/-- A single-step command completes with a value of ports `A` and `B` alone (R91, R93, R95). -/
theorem exec_of_single {i : Instr} {op : OpName} (h : commandEvent i = .single op) :
    ∃ f : Word → Word → Word, ∀ s : State, exec i s = .next (s.complete (f s.opA s.opB)) := by
  cases i with
  | eq64 ct => exact ⟨eq64, fun _ => rfl⟩
  | sel64 ign cond => exact ⟨select64 cond, fun _ => rfl⟩
  | shl64 amount => exact ⟨fun a _ => shl64 a amount, fun _ => rfl⟩
  | _ => exact nomatch h

/-! ### The event of a step (spec/00_scope.md R14) -/

theorem State.event_of_rst {s : State} (h : s.now.rst = true) : s.event = .idle := by
  rw [State.event, if_pos h]
theorem State.event_of_idle {s : State} (hr : s.now.rst = false) (h : s.st = .idle) :
    s.event = commandEvent (decode s.now.cmd) := by
  simp [State.event, hr, h]
theorem State.event_of_round {s : State} (hr : s.now.rst = false) (h : s.st = .round) :
    s.event = .pos s.j := by
  simp [State.event, hr, h]
theorem State.event_of_word {s : State} (hr : s.now.rst = false) (h : s.st = .word) :
    s.event = .read s.i := by
  simp [State.event, hr, h]
theorem State.event_of_fin {s : State} (hr : s.now.rst = false) (h : s.st = .fin) :
    s.event = .fin := by
  simp [State.event, hr, h]

/-! ### Agreement on the public data (spec/00_scope.md R9, R10) -/

theorem PublicRecord.refl (x : Inputs) : PublicRecord x x :=
  ⟨rfl, rfl, fun _ => rfl, fun _ => rfl⟩

/-- Where one list of records has run out so has the other: both hosts are idle (log 5). -/
theorem PublicRecord.headD {xs ys : List Inputs} (h : List.Forall₂ PublicRecord xs ys) :
    PublicRecord (xs.headD .quiet) (ys.headD .quiet) := by
  cases h with
  | nil => exact PublicRecord.refl _
  | cons hxy _ => exact hxy

theorem PublicRecord.tail {xs ys : List Inputs} (h : List.Forall₂ PublicRecord xs ys) :
    List.Forall₂ PublicRecord xs.tail ys.tail := by
  cases h with
  | nil => exact .nil
  | cons _ hrest => exact hrest

section
variable {s t u v : State}

theorem PublicEq.now (h : PublicEq s t) : PublicRecord s.now t.now := by
  obtain ⟨-, -, -, hin⟩ := h
  exact PublicRecord.headD hin

/-- In IDLE no register is public: agreement is agreement on the coming port records. -/
theorem PublicEq.of_idle (hs : s.st = .idle) (ht : t.st = .idle)
    (hin : List.Forall₂ PublicRecord s.inputs t.inputs) : PublicEq s t :=
  ⟨hs.trans ht.symm, fun h => absurd hs h, fun h => absurd hs h, hin⟩

theorem PublicEq.event (h : PublicEq s t) : s.event = t.event := by
  obtain ⟨hrst, hop, -, -⟩ := h.now
  obtain ⟨hst, hbusy, htest, -⟩ := h
  cases hr : s.now.rst with
  | true => rw [State.event_of_rst hr, State.event_of_rst (hrst ▸ hr)]
  | false =>
    have hr' : t.now.rst = false := hrst ▸ hr
    cases h : s.st with
    | idle =>
      rw [State.event_of_idle hr h, State.event_of_idle hr' (hst ▸ h), commandEvent_eq_opcodeEvent,
        hop, commandEvent_eq_opcodeEvent]
    | round =>
      obtain ⟨-, hj, -⟩ := hbusy (by simp [h])
      rw [State.event_of_round hr h, State.event_of_round hr' (hst ▸ h), hj]
    | word =>
      obtain ⟨hi, -⟩ := htest (by simp [h]) (.inr h)
      rw [State.event_of_word hr h, State.event_of_word hr' (hst ▸ h), hi]
    | fin => rw [State.event_of_fin hr h, State.event_of_fin hr' (hst ▸ h)]

/-- The edge reads and writes nothing public but the record that it uses up. -/
theorem PublicEq.tick (h : PublicEq s t) : PublicEq s.tick t.tick := by
  obtain ⟨hst, hbusy, htest, hin⟩ := h
  exact ⟨hst, hbusy, htest, PublicRecord.tail hin⟩

theorem PublicEq.acceptMask (h : PublicEq s t) (hk : s.now.k = t.now.k) :
    PublicEq s.acceptMask t.acceptMask := by
  obtain ⟨-, -, -, hin⟩ := h
  refine ⟨?_, fun _ => ⟨rfl, rfl, hk⟩, fun _ hw => absurd hw s.acceptMask_not_test_or_word, hin⟩
  rw [State.acceptMask_st, State.acceptMask_st, State.opK, State.opK, hk]
  exact nxt_mask_congr ..

theorem PublicEq.acceptTest (h : PublicEq s t) (hk : s.now.k = t.now.k) (hnw : s.now.nw = t.now.nw) :
    PublicEq s.acceptTest t.acceptTest := by
  obtain ⟨-, -, -, hin⟩ := h
  refine ⟨?_, fun _ => ⟨rfl, rfl, hk⟩, fun _ _ => ⟨rfl, hnw⟩, hin⟩
  rw [State.acceptTest_st, State.acceptTest_st, State.opK, State.opK, State.opNW, State.opNW, hk, hnw]

/-- The command's operation code is public, and so is what MASK and TEST latch of `K` and `NW`. -/
theorem PublicEq.exec (h : PublicEq s t) (hidle : s.st = .idle)
    (hu : exec (decode s.now.cmd) s = .next u) (hv : exec (decode t.now.cmd) t = .next v) :
    PublicEq u v := by
  obtain ⟨-, hop, hk, hnw⟩ := h.now
  by_cases hm : (decode s.now.cmd).opcode = 0b100
  · rw [exec_of_opcode_mask hm] at hu
    rw [exec_of_opcode_mask (hop ▸ hm)] at hv
    cases hu
    cases hv
    exact h.acceptMask (hk (.inl hm))
  by_cases ht : (decode s.now.cmd).opcode = 0b101
  · rw [exec_of_opcode_test ht] at hu
    rw [exec_of_opcode_test (hop ▸ ht)] at hv
    cases hu
    cases hv
    exact h.acceptTest (hk (.inr ht)) (hnw ht)
  · obtain ⟨-, -, huin, -⟩ := exec_keeps_outside hu
    obtain ⟨-, -, hvin, -⟩ := exec_keeps_outside hv
    obtain ⟨hst, -, -, hin⟩ := h
    refine PublicEq.of_idle ((exec_st_of_opcode_other hm ht hu).trans hidle)
      ((exec_st_of_opcode_other (hop ▸ hm) (hop ▸ ht) hv).trans (hst ▸ hidle)) ?_
    rw [huin, hvin]
    exact hin

theorem PublicEq.roundStep (h : PublicEq s t) (hb : s.st ≠ .idle) :
    PublicEq s.roundStep t.roundStep := by
  obtain ⟨-, hbusy, htest, hin⟩ := h
  obtain ⟨hmode, hj, hkr⟩ := hbusy hb
  have hj' : s.roundStep.j = t.roundStep.j := by
    rw [State.roundStep_j, State.roundStep_j, hj]
  refine ⟨?_, fun _ => ⟨hmode, hj', hkr⟩, fun _ hw => htest hb (.inl (mode_eq_test_of_nxt hw)), hin⟩
  rw [State.roundStep_st, State.roundStep_st, ← hmode, hj, hkr]
  exact nxt_congr_of_test fun hm => htest hb (.inl hm)

theorem PublicEq.wordStep (h : PublicEq s t) (hword : s.st = .word) :
    PublicEq s.wordStep t.wordStep := by
  obtain ⟨-, hbusy, htest, hin⟩ := h
  have hb : s.st ≠ .idle := by simp [hword]
  obtain ⟨hmode, -, hkr⟩ := hbusy hb
  obtain ⟨hi, hnwr⟩ := htest hb (.inr hword)
  have hi' : s.wordStep.i = t.wordStep.i := by
    rw [State.wordStep_i, State.wordStep_i, hi]
  refine ⟨?_, fun _ => ⟨hmode, rfl, hkr⟩, fun _ _ => ⟨hi', hnwr⟩, hin⟩
  rw [State.wordStep_st, State.wordStep_st, hi, hkr, hnwr]

theorem PublicEq.busyStep (h : PublicEq s t) (hb : s.st ≠ .idle) :
    PublicEq s.busyStep t.busyStep := by
  have ⟨hst, hbusy, _, hin⟩ := h
  cases hs : s.st with
  | idle => exact absurd hs hb
  | round =>
    rw [State.busyStep_of_round hs, State.busyStep_of_round (hst ▸ hs)]
    exact h.roundStep hb
  | word =>
    rw [State.busyStep_of_word hs, State.busyStep_of_word (hst ▸ hs)]
    exact h.wordStep hs
  | fin =>
    obtain ⟨hmode, -, -⟩ := hbusy hb
    cases hm : s.mode with
    | mask =>
      rw [State.busyStep_of_finMask hs hm, State.busyStep_of_finMask (hst ▸ hs) (hmode ▸ hm)]
      exact PublicEq.of_idle rfl rfl hin
    | test =>
      rw [State.busyStep_of_finTest hs hm, State.busyStep_of_finTest (hst ▸ hs) (hmode ▸ hm)]
      exact PublicEq.of_idle rfl rfl hin

end

theorem PublicEq.step {s t s' t' : State} (h : PublicEq s t) (hs : step s = .next s')
    (ht : step t = .next t') : PublicEq s' t' := by
  obtain ⟨u, rfl, ureset, uexec, ubusy⟩ := step_writes hs
  obtain ⟨v, rfl, vreset, vexec, vbusy⟩ := step_writes ht
  obtain ⟨hrst, -⟩ := h.now
  have ⟨hst, _, _, hin⟩ := h
  apply PublicEq.tick
  cases hr : s.now.rst with
  | true =>
    rw [ureset hr, vreset (hrst ▸ hr)]
    exact PublicEq.of_idle rfl rfl hin
  | false =>
    by_cases hidle : s.st = .idle
    · exact h.exec hidle (uexec hr hidle) (vexec (hrst ▸ hr) (hst ▸ hidle))
    · rw [ubusy hr hidle, vbusy (hrst ▸ hr) (hst ▸ hidle)]
      exact h.busyStep hidle

theorem PublicEq.trace {s t : State} (n : Nat) (h : PublicEq s t) : trace n s = trace n t := by
  induction n generalizing s t with
  | zero => rfl
  | succ n ih =>
    obtain ⟨s', hs⟩ := exists_step_eq_next s
    obtain ⟨t', ht⟩ := exists_step_eq_next t
    rw [Machine.trace, Machine.trace, hs, ht, h.event]
    exact congrArg _ (ih (h.step hs ht))

/-- Settles O43: every part of a step keeps the agreement (`PublicEq.step`), and the event is a
function of the public data (`PublicEq.event`); the traces follow by induction on their length. -/
theorem samePublicDataSameTrace : Obligations.SamePublicDataSameTrace :=
  ⟨fun _ _ _ _ h hs ht => ⟨h.step hs ht, h.event⟩, fun n _ _ h => h.trace n⟩

/-! ### Agreement on the live registers (spec/10_state.md R43) -/

section
variable {s t u v : State}

theorem LiveEq.now (h : LiveEq s t) : s.now = t.now := by
  obtain ⟨-, -, -, hin, -⟩ := h
  rw [State.now, State.now, hin]

/-- All public data is live, so the event of a step reads no stale register. -/
theorem LiveEq.publicEq (h : LiveEq s t) : PublicEq s t := by
  obtain ⟨hst, -, -, hin, -, -, hbusy, htest⟩ := h
  refine ⟨hst, fun hb => ?_, fun hb hw => ?_, ?_⟩
  · obtain ⟨hmode, -, hkr, -, hj, -⟩ := hbusy hb
    exact ⟨hmode, hj, hkr⟩
  · obtain ⟨-, -, -, hi, -, -⟩ := hbusy hb
    exact ⟨hi, (htest hb hw).1⟩
  · rw [hin]
    exact List.forall₂_same.2 fun x _ => PublicRecord.refl x

/-- Whether the edge's array write disturbs a TEST is read from live registers only (R164). -/
theorem LiveEq.hits (h : LiveEq s t) : s.hits = t.hits := by
  have hnow := h.now
  obtain ⟨hst, -, -, -, -, -, hbusy, htest⟩ := h
  by_cases hidle : s.st = .idle
  · simp [State.hits, State.busy, ← hst, hidle]
  · obtain ⟨hmode, -⟩ := hbusy hidle
    cases hm : s.mode with
    | mask =>
      have hne : (Mode.mask == Mode.test) = false := rfl
      simp [State.hits, ← hmode, hm, hne]
    | test =>
      obtain ⟨hnwr, -⟩ := htest hidle (.inl hm)
      rw [State.hits, State.hits, State.busy, State.busy, hst, hmode, hnwr, hnow]

theorem LiveEq.tick (h : LiveEq s t) : LiveEq s.tick t.tick := by
  have hhits := h.hits
  have hnow := h.now
  obtain ⟨hst, harr, hpos, hin, hdist, hdraws, hbusy, htest⟩ := h
  refine ⟨hst, ?_, hpos, ?_, ?_, hdraws, hbusy, htest⟩
  · rw [State.tick_array, State.tick_array, harr, hnow]
  · rw [State.tick_inputs, State.tick_inputs, hin]
  · rw [State.tick_disturbed, State.tick_disturbed, hdist, hhits]

theorem LiveEq.resetStep (h : LiveEq s t) : LiveEq s.resetStep t.resetStep := by
  obtain ⟨-, harr, hpos, hin, -, hdraws, -, -⟩ := h
  refine ⟨rfl, harr, hpos, hin, rfl, ?_, fun hb => absurd rfl hb, fun hb => absurd rfl hb⟩
  rw [State.resetStep_draws, State.resetStep_draws, hdraws]

/-- MASK latches every register that its steps read (R113); `NWR` and `V` stay stale and unread. -/
theorem LiveEq.acceptMask (h : LiveEq s t) : LiveEq s.acceptMask t.acceptMask := by
  have hnow := h.now
  obtain ⟨-, harr, hpos, hin, hdist, hdraws, -, -⟩ := h
  have hk : s.opK = t.opK := congrArg Inputs.k hnow
  refine ⟨?_, harr, hpos, hin, hdist, hdraws, fun _ => ?_,
    fun _ hw => absurd hw s.acceptMask_not_test_or_word⟩
  · rw [State.acceptMask_st, State.acceptMask_st, hk]
    exact nxt_mask_congr ..
  · exact ⟨rfl, congrArg Inputs.h hnow, hk, congrArg Inputs.a hnow, rfl, rfl⟩

/-- TEST latches or clears every hidden register (R122). -/
theorem LiveEq.acceptTest (h : LiveEq s t) : LiveEq s.acceptTest t.acceptTest := by
  have hnow := h.now
  obtain ⟨-, harr, hpos, hin, -, hdraws, -, -⟩ := h
  have hk : s.opK = t.opK := congrArg Inputs.k hnow
  have hnw : s.opNW = t.opNW := congrArg Inputs.nw hnow
  refine ⟨?_, harr, hpos, hin, rfl, hdraws, fun _ => ?_, fun _ _ => ⟨hnw, rfl⟩⟩
  · rw [State.acceptTest_st, State.acceptTest_st, hk, hnw]
  · exact ⟨rfl, congrArg Inputs.h hnow, hk, rfl, rfl, rfl⟩

/-- Completing writes `R` and `DONE`, which no step reads (R21, R22). -/
theorem LiveEq.complete (h : LiveEq s t) (x y : Word) : LiveEq (s.complete x) (t.complete y) := h

theorem LiveEq.exec {i : Instr} (h : LiveEq s t) (hu : exec i s = .next u)
    (hv : exec i t = .next v) : LiveEq u v := by
  cases i with
  | nop _ | rsv6 _ | rsv7 _ => cases hu; cases hv; exact h
  | eq64 _ | sel64 _ _ | shl64 _ => cases hu; cases hv; exact h.complete _ _
  | mask _ => cases hu; cases hv; exact h.acceptMask
  | test _ => cases hu; cases hv; exact h.acceptTest

theorem LiveEq.roundStep (h : LiveEq s t) (hb : s.st ≠ .idle) :
    LiveEq s.roundStep t.roundStep := by
  obtain ⟨hst, -, -, -⟩ := h.publicEq.roundStep hb
  obtain ⟨-, harr, hpos, hin, hdist, hdraws, hbusy, htest⟩ := h
  obtain ⟨hmode, hhr, hkr, hi, hj, hm⟩ := hbusy hb
  refine ⟨hst, harr, hpos, hin, hdist, hdraws, fun _ => ⟨hmode, hhr, hkr, hi, ?_, ?_⟩,
    fun _ hw => htest hb (.inl (mode_eq_test_of_nxt hw))⟩
  · rw [State.roundStep_j, State.roundStep_j, hj]
  · rw [State.roundStep_m, State.roundStep_m, State.position, State.position, hpos, hhr, hi, hj, hm]

/-- The answer of the array port reads live registers only (spec/20_memory.md R52). -/
theorem LiveEq.memRead (h : LiveEq s t) (hword : s.st = .word) : s.memRead = t.memRead := by
  obtain ⟨hst, harr, -, hin, hdist, hdraws, hbusy, htest⟩ := h
  have hb : s.st ≠ .idle := by simp [hword]
  obtain ⟨-, -, hkr, hi, -, -⟩ := hbusy hb
  obtain ⟨hnwr, -⟩ := htest hb (.inr hword)
  have hleft : s.testStepsLeft = t.testStepsLeft := by
    rw [State.testStepsLeft_word hword, State.testStepsLeft_word (hst ▸ hword), State.stepsFromWord,
      State.stepsFromWord, hnwr, hi, hkr]
  have hunstable : s.unstable = t.unstable := by
    rw [State.unstable, State.unstable, hdist, hnwr, hleft, hin]
  rw [State.memRead, State.memRead, hunstable, harr, hi, hdraws]

theorem LiveEq.wordStep (h : LiveEq s t) (hword : s.st = .word) : LiveEq s.wordStep t.wordStep := by
  obtain ⟨hst, -, -, -⟩ := h.publicEq.wordStep hword
  have hread := h.memRead hword
  obtain ⟨-, harr, hpos, hin, hdist, hdraws, hbusy, htest⟩ := h
  have hb : s.st ≠ .idle := by simp [hword]
  obtain ⟨hmode, hhr, hkr, hi, -, hm⟩ := hbusy hb
  obtain ⟨hnwr, hv⟩ := htest hb (.inr hword)
  refine ⟨hst, harr, hpos, hin, hdist, ?_, fun _ => ⟨hmode, hhr, hkr, ?_, rfl, rfl⟩,
    fun _ _ => ⟨hnwr, ?_⟩⟩
  · rw [State.wordStep_draws, State.wordStep_draws, hdraws]
  · rw [State.wordStep_i, State.wordStep_i, hi]
  · rw [State.wordStep_v, State.wordStep_v, hv, hread, hm]

/-- The FIN step ends in IDLE, where no register is live, with an `R` of live registers (R116, R126). -/
theorem LiveEq.finStep (h : LiveEq s t) (hfin : s.st = .fin) :
    LiveEq s.busyStep t.busyStep ∧
      s.busyStep.r = t.busyStep.r ∧ s.busyStep.done = true ∧ t.busyStep.done = true := by
  obtain ⟨hst, harr, hpos, hin, hdist, hdraws, hbusy, htest⟩ := h
  have hb : s.st ≠ .idle := by simp [hfin]
  obtain ⟨hmode, -, -, -, -, hm⟩ := hbusy hb
  cases hs : s.mode with
  | mask =>
    rw [State.busyStep_of_finMask hfin hs, State.busyStep_of_finMask (hst ▸ hfin) (hmode ▸ hs)]
    exact ⟨⟨rfl, harr, hpos, hin, hdist, hdraws, fun hb => absurd rfl hb, fun hb => absurd rfl hb⟩,
      hm, rfl, rfl⟩
  | test =>
    obtain ⟨-, hv⟩ := htest hb (.inl hs)
    rw [State.busyStep_of_finTest hfin hs, State.busyStep_of_finTest (hst ▸ hfin) (hmode ▸ hs)]
    refine ⟨⟨rfl, harr, hpos, hin, hdist, hdraws, fun hb => absurd rfl hb, fun hb => absurd rfl hb⟩,
      ?_, rfl, rfl⟩
    rw [State.finTest_r, State.finTest_r, hv]

theorem LiveEq.busyStep (h : LiveEq s t) (hb : s.st ≠ .idle) : LiveEq s.busyStep t.busyStep := by
  have ⟨hst, _⟩ := h
  cases hs : s.st with
  | idle => exact absurd hs hb
  | round =>
    rw [State.busyStep_of_round hs, State.busyStep_of_round (hst ▸ hs)]
    exact h.roundStep hb
  | word =>
    rw [State.busyStep_of_word hs, State.busyStep_of_word (hst ▸ hs)]
    exact h.wordStep hs
  | fin => exact (h.finStep hs).1

end

theorem LiveEq.step {s t s' t' : State} (h : LiveEq s t) (hs : step s = .next s')
    (ht : step t = .next t') : LiveEq s' t' := by
  obtain ⟨u, rfl, ureset, uexec, ubusy⟩ := step_writes hs
  obtain ⟨v, rfl, vreset, vexec, vbusy⟩ := step_writes ht
  have hnow := h.now
  have ⟨hst, _⟩ := h
  rw [← hnow] at vreset vexec vbusy
  rw [← hst] at vexec vbusy
  apply LiveEq.tick
  cases hr : s.now.rst with
  | true =>
    rw [ureset hr, vreset hr]
    exact h.resetStep
  | false =>
    by_cases hidle : s.st = .idle
    · exact h.exec (uexec hr hidle) (vexec hr hidle)
    · rw [ubusy hr hidle, vbusy hr hidle]
      exact h.busyStep hidle

/-! ### The steps that complete an operation (spec/10_state.md R21, R22) -/

/-- A completing step is the decode step of a single-step command or a FIN step. -/
theorem completing_event_cases {s : State} (h : (∃ op, s.event = .single op) ∨ s.event = .fin) :
    s.now.rst = false ∧
      ((s.st = .idle ∧ ∃ op, commandEvent (decode s.now.cmd) = .single op) ∨ s.st = .fin) := by
  cases hr : s.now.rst with
  | true => simp [State.event_of_rst hr] at h
  | false =>
    cases hs : s.st with
    | idle =>
      rw [State.event_of_idle hr hs] at h
      rcases h with h | h
      · exact ⟨rfl, .inl ⟨rfl, h⟩⟩
      · exact absurd h (by cases decode s.now.cmd <;> simp [commandEvent])
    | round => simp [State.event_of_round hr hs] at h
    | word => simp [State.event_of_word hr hs] at h
    | fin => exact ⟨rfl, .inr rfl⟩

theorem LiveEq.completes {s t s' t' : State} (h : LiveEq s t) (hs : Machine.step s = .next s')
    (ht : Machine.step t = .next t') (hc : (∃ op, s.event = .single op) ∨ s.event = .fin) :
    s'.r = t'.r ∧ s'.done = true ∧ t'.done = true := by
  obtain ⟨u, rfl, -, uexec, ubusy⟩ := step_writes hs
  obtain ⟨v, rfl, -, vexec, vbusy⟩ := step_writes ht
  have hnow := h.now
  have ⟨hst, _⟩ := h
  rw [← hnow, ← hst] at vexec vbusy
  simp only [State.tick_r, State.tick_done]
  obtain ⟨hr, ⟨hidle, op, hop⟩ | hfin⟩ := completing_event_cases hc
  · obtain ⟨f, hf⟩ := exec_of_single hop
    obtain rfl := Host.Outcome.next.inj ((hf s).symm.trans (uexec hr hidle))
    obtain rfl := Host.Outcome.next.inj ((hf t).symm.trans (vexec hr hidle))
    refine ⟨?_, rfl, rfl⟩
    rw [State.complete_r, State.complete_r, State.opA, State.opA, State.opB, State.opB, hnow]
  · have hb : s.st ≠ .idle := by simp [hfin]
    rw [ubusy hr hb, vbusy hr hb]
    exact (h.finStep hfin).2

/-- Settles O44: every part of a step keeps the agreement on the live registers (`LiveEq.step`), the
event is a function of the public ones among them, and a completing step takes its result from the
ports or from a live accumulator (`LiveEq.completes`). -/
theorem noStepReadsStaleRegisters : Obligations.NoStepReadsStaleRegisters :=
  fun _ _ _ _ h hs ht => ⟨h.step hs ht, h.publicEq.event, h.completes hs ht⟩

end Sys2Proof.Machine

/-!
The state of CORE (spec/10_state.md): the control invariant that every step keeps (R24), when `R` and
`DONE` change (R21, R22), the output ports (R23, R35) and the state right after reset (R42).
-/

namespace Sys2Proof.Machine

/-! ### The control invariant (spec/10_state.md R24, spec/41_mask_builder.md R112) -/

/-- In IDLE no counter is in use. -/
theorem ControlInv.of_idle {s : State} (h : s.st = .idle) : ControlInv s := by
  simp [ControlInv, h]

/-- While an operation runs `DONE` = 0 (R22, R24). -/
theorem ControlInv.done_eq_false {s : State} (hc : ControlInv s) (hb : s.st ≠ .idle) :
    s.done = false := by
  obtain ⟨hdone, -⟩ := hc
  exact Bool.eq_false_iff.2 fun hd => hb (hdone hd)

/-- Where `nxt` has chosen `ST` from counters that are not above their bounds, the invariant holds: a
counter that `nxt` finds different from its bound is below it (R112). -/
theorem ControlInv.of_nxt {s : State} (hdone : s.done = false)
    (hst : s.st = nxt s.mode s.i s.j s.kr s.nwr) (hj : s.j.toNat ≤ s.kr.toNat)
    (hi : s.mode = .test → s.i.toNat ≤ s.nwr.toNat) : ControlInv s := by
  have hlt {a b : Word} (hle : a.toNat ≤ b.toNat) (hne : a ≠ b) : a.toNat < b.toNat :=
    Nat.lt_of_le_of_ne hle (hne ∘ BitVec.eq_of_toNat_eq)
  cases hm : s.mode with
  | mask =>
    rw [hm] at hst
    rcases nxt_mask_cases s.i s.j s.kr s.nwr with ⟨hj', hn⟩ | ⟨hj', hn⟩ <;> rw [hn] at hst
    · simp [ControlInv, hdone, hst, hm, hj']
    · simp [ControlInv, hdone, hst, hm, hlt hj hj']
  | test =>
    rw [hm] at hst
    rcases nxt_test_cases s.i s.j s.kr s.nwr with ⟨hi', hn⟩ | ⟨hi', hj', hn⟩ | ⟨hi', hj', hn⟩ <;>
      rw [hn] at hst
    · simp [ControlInv, hdone, hst, hm, hi']
    · simp [ControlInv, hdone, hst, hm, hj', hlt (hi hm) hi']
    · simp [ControlInv, hdone, hst, hm, hlt hj hj', hlt (hi hm) hi']

/-- The edge writes none of the registers that the invariant reads. -/
theorem ControlInv.tick {s : State} (hc : ControlInv s) : ControlInv s.tick := hc

theorem controlInv_acceptMask (s : State) : ControlInv s.acceptMask :=
  ControlInv.of_nxt rfl rfl (Nat.zero_le _) fun h => nomatch h

theorem controlInv_acceptTest (s : State) : ControlInv s.acceptTest :=
  ControlInv.of_nxt rfl rfl (Nat.zero_le _) fun _ => Nat.zero_le _

/-- A single-step command leaves CORE in IDLE; MASK and TEST start their counters at 0 (R113, R122). -/
theorem controlInv_exec {i : Instr} {s u : State} (hidle : s.st = .idle)
    (h : exec i s = .next u) : ControlInv u := by
  obtain rfl | ⟨x, rfl⟩ | ⟨ct, -, rfl⟩ | ⟨ct, -, rfl⟩ := exec_cases h
  · exact ControlInv.of_idle hidle
  · exact ControlInv.of_idle hidle
  · exact controlInv_acceptMask s
  · exact controlInv_acceptTest s

/-- A counter below its bound does not wrap when it counts (R24). -/
theorem toNat_add_one_le {a b : Word} (h : a.toNat < b.toNat) : (a + 1).toNat ≤ b.toNat := by
  bv_omega

theorem ControlInv.roundStep {s : State} (hc : ControlInv s) (hround : s.st = .round) :
    ControlInv s.roundStep := by
  have hdone := hc.done_eq_false (by simp [hround])
  obtain ⟨-, hcount, -, -⟩ := hc
  obtain ⟨hj, hi⟩ := hcount hround
  exact ControlInv.of_nxt hdone rfl (toNat_add_one_le hj) fun hm => Nat.le_of_lt (hi hm)

theorem ControlInv.wordStep {s : State} (hc : ControlInv s) (hword : s.st = .word) :
    ControlInv s.wordStep := by
  have hdone := hc.done_eq_false (by simp [hword])
  obtain ⟨-, -, hcount, -⟩ := hc
  obtain ⟨hm, -, hi⟩ := hcount hword
  refine ControlInv.of_nxt hdone ?_ (Nat.zero_le _) fun _ => toNat_add_one_le hi
  simp only [State.wordStep_st, State.wordStep_mode, State.wordStep_i, State.wordStep_j,
    State.wordStep_kr, State.wordStep_nwr, hm]

theorem ControlInv.of_step {s t : State} (hc : ControlInv s) (h : step s = .next t) :
    ControlInv t := by
  rcases step_cases h with ⟨-, rfl⟩ | ⟨-, hidle, u, he, rfl⟩ | ⟨-, hround, rfl⟩ | ⟨-, hword, rfl⟩ |
    ⟨-, -, -, rfl⟩ | ⟨-, -, -, rfl⟩
  · exact ControlInv.of_idle rfl
  · exact (controlInv_exec hidle he).tick
  · exact (hc.roundStep hround).tick
  · exact (hc.wordStep hword).tick
  · exact ControlInv.of_idle rfl
  · exact ControlInv.of_idle rfl

/-- Settles O33: a step ends in IDLE, or `nxt` chooses `ST` from counters that were started at 0 or
have counted by one from below their bounds (`ControlInv.of_nxt`). -/
theorem stepKeepsControlState : Obligations.StepKeepsControlState :=
  fun _ _ hc h => hc.of_step h

/-! ### When `R` and `DONE` change (spec/10_state.md R21, R22) -/

/-- What a command does to the state, told from its event. -/
theorem exec_cases_by_event {i : Instr} {s u : State} (h : exec i s = .next u) :
    (commandEvent i = .idle ∧ u = s) ∨
    (∃ op x, commandEvent i = .single op ∧ u = s.complete x) ∨
    (commandEvent i = .start .mask ∧ u = s.acceptMask) ∨
    (commandEvent i = .start .test ∧ u = s.acceptTest) := by
  cases i with
  | nop _ | rsv6 _ | rsv7 _ => cases h; exact .inl ⟨rfl, rfl⟩
  | eq64 _ | sel64 _ _ | shl64 _ => cases h; exact .inr (.inl ⟨_, _, rfl, rfl⟩)
  | mask _ => cases h; exact .inr (.inr (.inl ⟨rfl, rfl⟩))
  | test _ => cases h; exact .inr (.inr (.inr ⟨rfl, rfl⟩))

/-- Settles O25: a command completes, starts an operation or changes nothing, as its event says
(`exec_cases_by_event`); of the sequencer's steps only FIN completes. -/
theorem resultAndDoneChangeOnlyAtCompletion : Obligations.ResultAndDoneChangeOnlyAtCompletion := by
  intro s t hrst h
  rcases step_cases h with ⟨hr, -⟩ | ⟨-, hidle, u, he, rfl⟩ | ⟨-, hround, rfl⟩ | ⟨-, hword, rfl⟩ |
    ⟨-, hfin, -, rfl⟩ | ⟨-, hfin, -, rfl⟩
  · exact absurd hr (by simp [hrst])
  · rw [State.event_of_idle hrst hidle]
    rcases exec_cases_by_event he with ⟨hev, rfl⟩ | ⟨op, x, hev, rfl⟩ | ⟨hev, rfl⟩ | ⟨hev, rfl⟩ <;>
      simp [hev]
  · simp [State.event_of_round hrst hround]
  · simp [State.event_of_word hrst hword]
  · simp [State.event_of_fin hrst hfin]
  · simp [State.event_of_fin hrst hfin]

/-! ### The output ports (spec/10_state.md R23, R35) -/

theorem State.busy_eq_false_iff (s : State) : s.busy = false ↔ s.st = .idle := by
  cases h : s.st <;> simp [State.busy, h]

theorem State.posReq_eq_true_iff (s : State) : s.posReq = true ↔ s.st = .round := by
  simp [State.posReq]

theorem State.memReq_eq_true_iff (s : State) : s.memReq = true ↔ s.st = .word := by
  simp [State.memReq]

/-- In a ROUND step the position ports show the hash result and the round index. -/
theorem State.outputs_pos_of_round {s : State} (h : s.st = .round) :
    s.outputs.posH = s.hr ∧ s.outputs.posJ = s.j := by
  have hreq := s.posReq_eq_true_iff.2 h
  exact ⟨if_pos hreq, if_pos hreq⟩

theorem State.outputs_pos_of_ne_round {s : State} (h : s.st ≠ .round) :
    s.outputs.posH = ⟨0, 0, 0, 0⟩ ∧ s.outputs.posJ = 0 := by
  have hreq := mt s.posReq_eq_true_iff.1 h
  exact ⟨if_neg hreq, if_neg hreq⟩

theorem State.outputs_memAddr_of_word {s : State} (h : s.st = .word) : s.outputs.memAddr = s.i :=
  if_pos (s.memReq_eq_true_iff.2 h)

theorem State.outputs_memAddr_of_ne_word {s : State} (h : s.st ≠ .word) : s.outputs.memAddr = 0 :=
  if_neg (mt s.memReq_eq_true_iff.1 h)

/-- Settles O28, port by port. -/
theorem outputsFollowRegisters : Obligations.OutputsFollowRegisters := fun s =>
  ⟨rfl, rfl, s.busy_eq_false_iff, s.posReq_eq_true_iff, s.memReq_eq_true_iff,
    State.outputs_pos_of_round, State.outputs_pos_of_ne_round, State.outputs_memAddr_of_word,
    State.outputs_memAddr_of_ne_word⟩

/-! ### Right after reset (spec/10_state.md R42) -/

/-- Settles O20: the two reset values, and the ports that request nothing outside ROUND and
WORD (`State.outputs_pos_of_ne_round`, `State.outputs_memAddr_of_ne_word`). -/
theorem resetStateIsIdleNotDone : Obligations.ResetStateIsIdleNotDone := by
  have hidle : State.reset.st = .idle := rfl
  obtain ⟨hposH, hposJ⟩ := State.outputs_pos_of_ne_round (s := State.reset) (by simp [hidle])
  exact ⟨hidle, rfl, (State.busy_eq_false_iff _).2 hidle, rfl, rfl, hposH, hposJ,
    State.outputs_memAddr_of_ne_word (by simp [hidle])⟩

/-- Settles O37: three invariants ask nothing in IDLE (for `ControlInv`, beyond `DONE`, which IDLE
allows), and the array is empty. -/
theorem resetSatisfiesInvariants : Obligations.ResetSatisfiesInvariants := by
  have hidle : State.reset.st = .idle := rfl
  exact ⟨ControlInv.of_idle hidle, fun hb => absurd hidle hb, fun hb => absurd hidle hb, rfl⟩

end Sys2Proof.Machine

/-!
The memory of CORE (spec/20_memory.md): the position split (R53), who writes the array (R51), and
what a TEST reads of it: in which order (R57), and with which values when it is written meanwhile
(R56).
-/

namespace Sys2Proof.Machine

/-! ### The position split (spec/20_memory.md R53) -/

theorem toNat_posWord (p : Word) : (posWord p).toNat = p.toNat / 64 := by
  have hp := p.isLt
  rw [posWord, BitVec.toNat_setWidth, BitVec.extractLsb'_toNat, Nat.shiftRight_eq_div_pow]
  omega

theorem toNat_posBit (p : Word) : (posBit p).toNat = p.toNat % 64 := by
  rw [posBit, BitVec.extractLsb'_toNat, Nat.shiftRight_zero]

/-- Settles O4: each field of the split is its shift and remainder as a number. -/
theorem positionSplitIsDivMod : Obligations.PositionSplitIsDivMod :=
  fun p => ⟨toNat_posWord p, toNat_posBit p⟩

/-! ### Who writes the array (spec/20_memory.md R51) -/

/-- Outside CORE a step changes what the edge changes: the inserter's write lands, and the port
record is used up (log 5, log 6). -/
theorem step_outside {s t : State} (h : step s = .next t) :
    t.array = landWrite s.array s.now.insert ∧ t.inputs = s.inputs.tail := by
  rcases step_cases h with ⟨-, rfl⟩ | ⟨-, -, u, he, rfl⟩ | ⟨-, -, rfl⟩ | ⟨-, -, rfl⟩ |
    ⟨-, -, -, rfl⟩ | ⟨-, -, -, rfl⟩
  case inr.inl =>
    obtain ⟨harr, -, hin, -⟩ := exec_keeps_outside he
    rw [State.tick_array, State.tick_inputs, State.now, State.now, harr, hin]
    exact ⟨rfl, rfl⟩
  all_goals exact ⟨rfl, rfl⟩

/-- Writing a word changes none of the cells outside it. -/
theorem Memory.read?_writeWord_outside (m : Memory) (i v : Word) {a : Nat} (h : a / 8 ≠ i.toNat) :
    Memory.read? (Memory.writeWord m i v) a = Memory.read? m a := by
  refine Memory.read?_writeLanes_other m i v 8 a fun b hb => ?_
  rw [cellKey]
  omega

/-- Settles O26: a command leaves what stands outside CORE as it is (`exec_keeps_outside`), and the
array after a step is the one that the inserter's write leaves (`step_outside`). -/
theorem coreNeverWritesTheArray : Obligations.CoreNeverWritesTheArray := by
  refine ⟨fun i s t h => ?_, fun s t h hnone => ?_, fun s t idx value h hsome => ?_⟩
  · obtain ⟨harr, hpos, hin, -⟩ := exec_keeps_outside h
    exact ⟨harr, hpos, hin⟩
  · obtain ⟨harr, -⟩ := step_outside h
    rw [harr, hnone, landWrite_none]
  · obtain ⟨harr, -⟩ := step_outside h
    rw [harr, hsome, landWrite_some]
    exact ⟨Memory.readWord?_writeWord_same _ _ _,
      fun i hi => Memory.readWord?_writeWord_other _ _ _ _ hi,
      fun a ha => Memory.read?_writeWord_outside _ _ _ ha⟩

/-! ### Edges without reset -/

theorem NoReset.now {n : Nat} {s : State} (h : NoReset (n + 1) s) : s.now.rst = false := by
  cases hin : s.inputs with
  | nil => simp [State.now, hin, Inputs.quiet]
  | cons x rest =>
    rw [State.now, hin]
    exact h x (by simp [hin])

theorem NoReset.step {n : Nat} {s t : State} (h : NoReset (n + 1) s) (hs : step s = .next t) :
    NoReset n t := by
  obtain ⟨-, htail⟩ := step_outside hs
  intro x hx
  rw [htail] at hx
  cases hin : s.inputs with
  | nil => simp [hin] at hx
  | cons y rest => exact h x (by rw [hin] at hx ⊢; exact List.mem_cons_of_mem y hx)

/-! ### A running TEST (spec/42_test_aggregator.md R121, R123) -/

theorem nxt_ne_idle (md : Mode) (i j kr nwr : Word) : nxt md i j kr nwr ≠ .idle := by
  cases md with
  | mask => rcases nxt_mask_cases i j kr nwr with ⟨-, e⟩ | ⟨-, e⟩ <;> simp [e]
  | test => rcases nxt_test_cases i j kr nwr with ⟨-, e⟩ | ⟨-, -, e⟩ | ⟨-, -, e⟩ <;> simp [e]

/-- A TEST runs in `s`, and no reset comes before its end: what holds between its accept step and
its FIN step (spec/10_state.md R24, spec/70_reset_and_hazards.md R172). -/
structure TestRuns (s : State) : Prop where
  /-- the counters are where the sequencer can have them -/
  control : ControlInv s
  /-- an operation runs -/
  busy : s.st ≠ .idle
  /-- it is a TEST -/
  mode : s.mode = .test
  /-- no reset comes at the edges that it has still to take -/
  noReset : NoReset s.testStepsLeft s

section
variable {s t u : State}

/-- The FIN step is always still to come. -/
theorem TestRuns.exists_testStepsLeft (h : TestRuns s) : ∃ n, s.testStepsLeft = n + 1 := by
  cases hst : s.st with
  | idle => exact absurd hst h.busy
  | round => exact ⟨_, State.testStepsLeft_round hst⟩
  | word => exact ⟨_, State.testStepsLeft_word hst⟩
  | fin => exact ⟨0, State.testStepsLeft_fin hst⟩

theorem TestRuns.now_rst (h : TestRuns s) : s.now.rst = false := by
  obtain ⟨n, hn⟩ := h.exists_testStepsLeft
  exact (hn ▸ h.noReset).now

/-- The three kinds of step that a running TEST takes (R123). -/
theorem TestRuns.step_cases (h : TestRuns s) (hs : step s = .next t) :
    (s.st = .round ∧ t = s.roundStep.tick) ∨ (s.st = .word ∧ t = s.wordStep.tick) ∨
    (s.st = .fin ∧ t = s.finTest.tick) := by
  rcases Machine.step_cases hs with ⟨hr, -⟩ | ⟨-, hidle, -⟩ | ⟨-, hst, e⟩ | ⟨-, hst, e⟩ |
    ⟨-, -, hm, -⟩ | ⟨-, hst, -, e⟩
  · exact absurd hr (by simp [h.now_rst])
  · exact absurd hidle h.busy
  · exact .inl ⟨hst, e⟩
  · exact .inr (.inl ⟨hst, e⟩)
  · exact absurd hm (by simp [h.mode])
  · exact .inr (.inr ⟨hst, e⟩)

/-- Before FIN a step leaves the TEST running. -/
theorem TestRuns.step_busy (h : TestRuns s) (hs : step s = .next t) (hfin : s.st ≠ .fin) :
    t.st ≠ .idle ∧ t.mode = .test := by
  rcases h.step_cases hs with ⟨-, rfl⟩ | ⟨-, rfl⟩ | ⟨hst, -⟩
  · exact ⟨nxt_ne_idle _ _ _ _ _, h.mode⟩
  · exact ⟨nxt_ne_idle .test _ _ _ _, h.mode⟩
  · exact absurd hst hfin

theorem TestRuns.testStepsLeft_eq (h : TestRuns s) (hs : step s = .next t) (hfin : s.st ≠ .fin) :
    s.testStepsLeft = t.testStepsLeft + 1 :=
  testStepsLeft_step h.control h.busy h.mode h.now_rst hs (h.step_busy hs hfin).1

theorem TestRuns.step (h : TestRuns s) (hs : step s = .next t) (hfin : s.st ≠ .fin) :
    TestRuns t := by
  obtain ⟨hbusy, hmode⟩ := h.step_busy hs hfin
  exact ⟨h.control.of_step hs, hbusy, hmode, (h.testStepsLeft_eq hs hfin ▸ h.noReset).step hs⟩

theorem TestRuns.unstable_eq (h : TestRuns s) (hs : Machine.step s = .next t) (hfin : s.st ≠ .fin) :
    t.unstable = s.unstable :=
  unstable_step h.control h.busy h.mode h.now_rst hs (h.step_busy hs hfin).1

/-- Throughout the steps that a TEST has left it runs, and is disturbed or not as it was (log 7). -/
theorem TestRuns.run {n : Nat} (h : TestRuns s) (hn : n < s.testStepsLeft)
    (hu : run n s = .next u) : TestRuns u ∧ u.unstable = s.unstable := by
  induction n generalizing s with
  | zero =>
    cases hu
    exact ⟨h, rfl⟩
  | succ n ih =>
    obtain ⟨t, ht⟩ := exists_step_eq_next s
    have hfin : s.st ≠ .fin := fun hst => by
      rw [State.testStepsLeft_fin hst] at hn
      omega
    rw [Machine.run, ht] at hu
    have hleft := h.testStepsLeft_eq ht hfin
    obtain ⟨hruns, hsame⟩ := ih (h.step ht hfin) (by omega) hu
    exact ⟨hruns, hsame.trans (h.unstable_eq ht hfin)⟩

/-! ### The accept step of TEST (spec/42_test_aggregator.md R122) -/

theorem step_of_accepts_test {ct : BitVec 6} (h : Accepts s (.test ct)) :
    step s = .next s.acceptTest.tick := by
  obtain ⟨hidle, hrst, hcmd⟩ := h
  simp [Machine.step, hrst, hidle, hcmd, exec, execTest, afterExec]

theorem testSteps_eq_testStepsLeft_accept (s : State) :
    testSteps s.now.k s.now.nw = s.acceptTest.tick.testStepsLeft + 1 := by
  have hnw : (s.opNW - 0).toNat = s.now.nw.toNat := by simp [State.opNW]
  rw [testStepsLeft_enterWord (s := s.acceptTest.tick) rfl rfl, State.tick_nwr, State.tick_i,
    State.tick_kr, State.acceptTest_nwr, State.acceptTest_i, State.acceptTest_kr, hnw, testSteps,
    State.opK]

theorem TestRuns.of_accepts {ct : BitVec 6} (h : Accepts s (.test ct))
    (hr : NoReset (testSteps s.now.k s.now.nw) s) : TestRuns s.acceptTest.tick :=
  ⟨(controlInv_acceptTest s).tick, nxt_ne_idle .test _ _ _ _, rfl,
    (testSteps_eq_testStepsLeft_accept s ▸ hr).step (step_of_accepts_test h)⟩

/-! ### The order of the reads (spec/20_memory.md R57) -/

/-- In the steps that a TEST has left it reads the words from `I` to `NWR - 1`, each once and in
that order: only a WORD step emits a Read event, it reads word `I`, and only it counts `I`. -/
theorem TestRuns.reads {n : Nat} (h : TestRuns s) (hn : s.testStepsLeft = n) :
    (trace n s).filterMap Event.readIndex? =
      (List.range' s.i.toNat (s.nwr.toNat - s.i.toNat)).map (BitVec.ofNat 64) := by
  induction n generalizing s with
  | zero =>
    obtain ⟨m, hm⟩ := h.exists_testStepsLeft
    omega
  | succ n ih =>
    obtain ⟨t, ht⟩ := exists_step_eq_next s
    have hnext (hfin : s.st ≠ .fin) := ih (h.step ht hfin) (by
      have := h.testStepsLeft_eq ht hfin
      omega)
    obtain ⟨-, -, hword, hend⟩ := h.control
    rw [trace, ht]
    rcases h.step_cases ht with ⟨hst, rfl⟩ | ⟨hst, rfl⟩ | ⟨hst, rfl⟩
    · rw [State.event_of_round h.now_rst hst]
      exact hnext (by simp [hst])
    · obtain ⟨-, -, hi⟩ := hword hst
      have hsucc : (s.i + 1).toNat = s.i.toNat + 1 := by bv_omega
      have hcount : s.nwr.toNat - s.i.toNat = s.nwr.toNat - (s.i.toNat + 1) + 1 := by omega
      have hrest := hnext (by simp [hst])
      rw [State.tick_i, State.wordStep_i, State.tick_nwr, State.wordStep_nwr, hsucc] at hrest
      rw [State.event_of_word h.now_rst hst, hcount, List.range'_succ, List.map_cons,
        BitVec.ofNat_toNat, BitVec.setWidth_eq, ← hrest]
      rfl
    · obtain ⟨-, hi⟩ := hend hst
      obtain rfl : n = 0 := by
        rw [State.testStepsLeft_fin hst] at hn
        omega
      rw [State.event_of_fin h.now_rst hst, hi h.mode, Nat.sub_self]
      rfl

end

/-- Settles O42: the accept step reads nothing and leaves `I` = 0, and the steps after it read the
words from `I` on (`TestRuns.reads`). -/
theorem testReadsEveryWordOnce : Obligations.TestReadsEveryWordOnce := by
  intro s ct h hr
  have ⟨hidle, hrst, hcmd⟩ := h
  have hreads := (TestRuns.of_accepts h hr).reads rfl
  rw [State.tick_i, State.tick_nwr, State.acceptTest_i, State.acceptTest_nwr] at hreads
  rw [testSteps_eq_testStepsLeft_accept, trace, step_of_accepts_test h,
    State.event_of_idle hrst hidle, hcmd, List.range_eq_range']
  exact hreads

/-! ### The reads of a TEST that is written under (spec/20_memory.md R56) -/

/-- Settles O48: the write makes the TEST disturbed from its accept step on (`unstable_accept`), it
stays so at each of its steps (`TestRuns.run`), and a read of a disturbed TEST is a free value
(`State.memRead_of_unstable`), which the WORD step uses up. -/
theorem forbiddenWriteFreesEveryRead : Obligations.ForbiddenWriteFreesEveryRead := by
  intro s ct h hr hwrite n u hpos hn hu hword
  have ⟨_, hrst, _⟩ := h
  obtain ⟨m, rfl⟩ : ∃ m, n = m + 1 := ⟨n - 1, by omega⟩
  have haccept : s.acceptTest.tick.unstable = true := by
    rw [unstable_accept hrst, writesAhead_eq_any hr, List.any_eq_true]
    exact hwrite
  rw [testSteps_eq_testStepsLeft_accept] at hn
  rw [run, step_of_accepts_test h] at hu
  obtain ⟨hruns, hsame⟩ := (TestRuns.of_accepts h hr).run (by omega) hu
  refine ⟨State.memRead_of_unstable (hsame.trans haccept), fun t ht => ?_⟩
  obtain ⟨v, rfl, -, -, hbusy⟩ := step_writes ht
  rw [State.tick_draws, hbusy hruns.now_rst hruns.busy, State.busyStep_of_word hword,
    State.wordStep_draws]

end Sys2Proof.Machine

/-!
The command word and its table (spec/30_encoding.md R70 to R73): a word is its two fields, an
instruction its operation code and its control operand, and `encode` and `decode` carry one pair over
to the other.
-/

namespace Sys2Proof

/-! ### The fields of a command word (spec/30_encoding.md R70, R71) -/

@[simp] theorem opField_append (op : BitVec 3) (ct : BitVec 6) : opField (op ++ ct) = op := by
  rw [opField, BitVec.extractLsb'_append_eq_left]

@[simp] theorem ctField_append (op : BitVec 3) (ct : BitVec 6) : ctField (op ++ ct) = ct := by
  rw [ctField, BitVec.extractLsb'_append_eq_right]

/-- `OP` and `CT` are all of the word. -/
theorem opField_append_ctField (w : CmdWord) : opField w ++ ctField w = w := by
  rw [opField, ctField, BitVec.extractLsb'_append_extractLsb'_eq_extractLsb' (by rfl)]
  exact BitVec.extractLsb'_eq_self

/-- SEL64's two fields are all of `CT`. -/
theorem selIgnoredField_append_condField (w : CmdWord) :
    selIgnoredField w ++ condField w = ctField w :=
  BitVec.extractLsb'_append_extractLsb'_eq_extractLsb' rfl

@[simp] theorem selIgnoredField_append (op : BitVec 3) (ign : BitVec 5) (cond : BitVec 1) :
    selIgnoredField (op ++ (ign ++ cond)) = ign := by
  have hfield (w : CmdWord) : selIgnoredField w = (ctField w).extractLsb' 1 5 := by
    ext i hi
    simp [selIgnoredField, ctField]
  rw [hfield, ctField_append, BitVec.extractLsb'_append_eq_left]

@[simp] theorem condField_append (op : BitVec 3) (ign : BitVec 5) (cond : BitVec 1) :
    condField (op ++ (ign ++ cond)) = cond := by
  have hfield (w : CmdWord) : condField w = (ctField w).extractLsb' 0 1 := by
    ext i hi
    simp [condField, ctField]
  rw [hfield, ctField_append, BitVec.extractLsb'_append_eq_right]

/-! ### Decoding and encoding (spec/30_encoding.md R72) -/

theorem decode_encode (i : Instr) : decode (encode i) = i := by
  cases i with
  | sel64 ign cond =>
    rw [encode, decode, opField_append]
    exact congrArg₂ Instr.sel64 (selIgnoredField_append _ _ _) (condField_append _ _ _)
  | _ ct =>
    rw [encode, decode, opField_append, ctField_append]
    rfl

/-- The eight operation codes. -/
theorem op_cases (op : BitVec 3) : op = 0b000 ∨ op = 0b001 ∨ op = 0b010 ∨ op = 0b011 ∨
    op = 0b100 ∨ op = 0b101 ∨ op = 0b110 ∨ op = 0b111 := by
  revert op
  decide

/-- Each row of the table is selected by its own operation code. -/
theorem opcode_decode (w : CmdWord) : (decode w).opcode = opField w := by
  rcases op_cases (opField w) with h | h | h | h | h | h | h | h <;>
    (rw [decode, h]; rfl)

theorem control_decode (w : CmdWord) : (decode w).control = ctField w := by
  unfold decode
  split
  case h_3 => exact selIgnoredField_append_condField w
  all_goals rfl

theorem encode_decode (w : CmdWord) : encode (decode w) = w := by
  rw [encode, opcode_decode, control_decode, opField_append_ctField]

/-! ### The canonical form (spec/30_encoding.md R79) -/

theorem canonical_wellFormed (i : Instr) : i.canonical.WellFormed := by
  cases i <;> rfl

theorem canonical_eq_of_wellFormed {i : Instr} (h : i.WellFormed) : i.canonical = i := by
  cases i with
  | shl64 amount => rfl
  | _ =>
    obtain rfl := eq_of_beq h
    rfl

theorem wellFormed_iff_canonical_eq (i : Instr) : i.WellFormed ↔ i.canonical = i :=
  ⟨canonical_eq_of_wellFormed, fun h => h ▸ canonical_wellFormed i⟩

theorem opcode_canonical (i : Instr) : i.canonical.opcode = i.opcode := by
  cases i <;> rfl

/-- The mask of R72 keeps the operation code and clears the control operand. -/
theorem encode_and_mask (i : Instr) : encode i &&& 0x1C0 = i.opcode ++ (0 : BitVec 6) :=
  Laws.Row.op_append i.opcode i.control

/-- Settles O29: instruction and word are the same pair of fields (`decode_encode`, `encode_decode`),
and the canonical form keeps the operation code, which is all that the mask leaves. -/
theorem decodeAndEncodeAreInverse : Obligations.DecodeAndEncodeAreInverse :=
  ⟨decode_encode, encode_decode, wellFormed_iff_canonical_eq, fun i => by
    rw [encode_and_mask, encode_and_mask, opcode_canonical]⟩

/-! ### The rows of the operation table (spec/30_encoding.md R72) -/

theorem and_mask_eq (w : CmdWord) : w &&& 0x1C0 = opField w ++ (0 : BitVec 6) := by
  rw [← opcode_decode, ← encode_and_mask, encode_decode]

theorem opField_of_and_mask {w : CmdWord} {op : BitVec 3}
    (h : w &&& 0x1C0 = op ++ (0 : BitVec 6)) : opField w = op := by
  rw [← opField_append op 0, ← h, and_mask_eq, opField_append]

/-- The `match` column of a row is its operation code. -/
theorem rowMatch_eq (i : Instr) : Laws.Row.rowMatch i = i.opcode ++ (0 : BitVec 6) := by
  cases i <;> simp [Laws.Row.rowMatch, Instr.opcode]

/-- The word that a row's mask and match select, with the operands of an instruction of that row,
decodes to the instruction: it is its encoding. -/
theorem decode_eq_of_and_mask {w : CmdWord} {i : Instr}
    (hrow : w &&& 0x1C0 = Laws.Row.rowMatch i) (hct : i.control = ctField w) :
    decode w = i := by
  rw [← opField_append_ctField w, opField_of_and_mask (hrow.trans (rowMatch_eq i)), ← hct]
  exact decode_encode i

/-- Settles O30: mask, match and operands together fix the instruction (`decode_eq_of_and_mask`), and
every operation code is some row's (`op_cases`). -/
theorem decodeSelectsTableRow : Obligations.DecodeSelectsTableRow := by
  refine fun w => ⟨fun h => decode_eq_of_and_mask h rfl, fun h => decode_eq_of_and_mask h rfl,
    fun h => decode_eq_of_and_mask h (selIgnoredField_append_condField w),
    fun h => decode_eq_of_and_mask h rfl, fun h => decode_eq_of_and_mask h rfl,
    fun h => decode_eq_of_and_mask h rfl, fun h => decode_eq_of_and_mask h rfl,
    fun h => decode_eq_of_and_mask h rfl, ?_⟩
  rw [and_mask_eq]
  rcases op_cases (opField w) with h | h | h | h | h | h | h | h <;> rw [h] <;> decide

/-- Settles O31: each of the nine words is the encoding of its instruction, which `decode` gives back
(`decode_encode`). -/
theorem wordsFromTheTableDecode : Obligations.WordsFromTheTableDecode :=
  ⟨decode_encode (.nop 0), decode_encode (.eq64 0b111111), decode_encode (.sel64 0 1),
    decode_encode (.sel64 0b11111 0), decode_encode (.shl64 37), decode_encode (.mask 0),
    decode_encode (.test 0), decode_encode (.rsv6 0), decode_encode (.rsv7 0b111111)⟩

end Sys2Proof

/-!
What a step reads of the ports (spec/30_encoding.md R75 to R78): two port records at one edge that
differ only where the step does not look give the same step. Each register write leaves the records as
they are, so the two steps agree as soon as the registers they write do.
-/

namespace Sys2Proof.Machine

/-! ### The accept step of any command (spec/30_encoding.md R75, R76) -/

theorem step_of_accepts {s t : State} {i : Instr} (h : Accepts s i) (he : exec i s = .next t) :
    step s = .next t.tick := by
  obtain ⟨hidle, hrst, rfl⟩ := h
  simp [step, hrst, hidle, he, afterExec]

/-- Settles O22: an accepted command runs and the edge passes (`step_of_accepts`); the second part is
the edge as `State.tick` has it. -/
theorem stepRunsDecodedCommand : Obligations.StepRunsDecodedCommand :=
  fun _ _ _ h he => ⟨step_of_accepts h he, rfl⟩

/-! ### One state with one or another port record at the edge (spec/10_state.md R34) -/

/-- `s` with the port record `x` at the coming edge and `rest` behind it. -/
def State.facing (s : State) (x : Inputs) (rest : List Inputs) : State :=
  { s with inputs := x :: rest }

/-- A command that starts nothing changes nothing (spec/40_primitives.md R97). -/
theorem exec_of_event_idle {i : Instr} (h : commandEvent i = .idle) (s : State) :
    exec i s = .next s := by
  cases i with
  | nop _ | rsv6 _ | rsv7 _ => rfl
  | _ => exact nomatch h

section
variable {x y : Inputs} (s : State) (rest : List Inputs)

/-- The edge reads the inserter's write alone (log 5, log 6). -/
theorem State.tick_facing_congr (hins : x.insert = y.insert) :
    (s.facing x rest).tick = (s.facing y rest).tick := by
  simp [State.tick, State.hits, State.busy, State.now, State.facing, hins]

/-- A read of the array depends on no port but `rst` and on the inserter's writes (log 7). -/
theorem State.memRead_facing_congr (hrst : x.rst = y.rst) (hins : x.insert = y.insert) :
    (s.facing x rest).memRead = (s.facing y rest).memRead := by
  have hahead (nw : Word) (n : Nat) :
      writesAhead nw n (x :: rest) = writesAhead nw n (y :: rest) := by
    cases n with
    | zero => rfl
    | succ n => rw [writesAhead, writesAhead, hrst, hins]
  have hunstable : (s.facing x rest).unstable = (s.facing y rest).unstable :=
    congrArg (s.disturbed || ·) (hahead s.nwr s.testStepsLeft)
  rw [State.memRead, State.memRead, hunstable]
  rfl

/-- The sequencer's steps write the same registers whatever stands on the other ports
(spec/30_encoding.md R78). -/
theorem State.busyStep_facing (hb : s.st ≠ .idle) (hrst : x.rst = y.rst)
    (hins : x.insert = y.insert) :
    ∃ u : State, (s.facing x rest).busyStep = u.facing x rest ∧
      (s.facing y rest).busyStep = u.facing y rest := by
  cases hst : s.st with
  | idle => exact absurd hst hb
  | round => exact ⟨s.roundStep, State.busyStep_of_round hst, State.busyStep_of_round hst⟩
  | word =>
    refine ⟨(s.facing x rest).wordStep, State.busyStep_of_word hst, ?_⟩
    rw [State.busyStep_of_word (s := s.facing y rest) hst, State.wordStep,
      ← State.memRead_facing_congr s rest hrst hins]
    rfl
  | fin =>
    cases hm : s.mode with
    | mask => exact ⟨s.finMask, State.busyStep_of_finMask hst hm, State.busyStep_of_finMask hst hm⟩
    | test => exact ⟨s.finTest, State.busyStep_of_finTest hst hm, State.busyStep_of_finTest hst hm⟩

theorem State.acceptMask_facing (ha : x.a = y.a) (hh : x.h = y.h) (hk : x.k = y.k) :
    (s.facing y rest).acceptMask = (s.facing x rest).acceptMask.facing y rest := by
  simp [State.acceptMask, State.latch, State.opA, State.opH, State.opK, State.now, State.facing, ha,
    hh, hk]

theorem State.acceptTest_facing (hh : x.h = y.h) (hk : x.k = y.k) (hnw : x.nw = y.nw) :
    (s.facing y rest).acceptTest = (s.facing x rest).acceptTest.facing y rest := by
  simp [State.acceptTest, State.latch, State.opH, State.opK, State.opNW, State.now, State.facing, hh,
    hk, hnw]

/-- Two commands write the same registers when the records agree on what they sample
(spec/30_encoding.md R77). -/
theorem exec_facing (h : SampleAgree x y) :
    ∃ u : State, exec (decode x.cmd) (s.facing x rest) = .next (u.facing x rest) ∧
      exec (decode y.cmd) (s.facing y rest) = .next (u.facing y rest) := by
  unfold SampleAgree at h
  split at h
  next hx hy =>
    obtain ⟨ha, hb⟩ := h
    rw [hx, hy]
    exact ⟨s.complete (eq64 x.a x.b), rfl, by rw [ha, hb]; rfl⟩
  next hx hy =>
    obtain ⟨rfl, ha, hb⟩ := h
    rw [hx, hy]
    exact ⟨s.complete (select64 _ x.a x.b), rfl, by rw [ha, hb]; rfl⟩
  next hx hy =>
    obtain ⟨rfl, ha⟩ := h
    rw [hx, hy]
    exact ⟨s.complete (shl64 x.a _), rfl, by rw [ha]; rfl⟩
  next hx hy =>
    obtain ⟨ha, hh, hk⟩ := h
    rw [hx, hy]
    exact ⟨(s.facing x rest).acceptMask, rfl, congrArg _ (State.acceptMask_facing s rest ha hh hk)⟩
  next hx hy =>
    obtain ⟨hh, hk, hnw⟩ := h
    rw [hx, hy]
    exact ⟨(s.facing x rest).acceptTest, rfl, congrArg _ (State.acceptTest_facing s rest hh hk hnw)⟩
  next =>
    obtain ⟨hi, hi'⟩ := h
    exact ⟨s, exec_of_event_idle hi _, exec_of_event_idle hi' _⟩

end

/-- Settles O23: whether the step is a reset, a command or one of the sequencer's, it writes the same
registers with either record (`exec_facing`, `State.busyStep_facing`), and then the edge does the same
(`State.tick_facing_congr`). -/
theorem stepReadsOnlySampledPorts : Obligations.StepReadsOnlySampledPorts := by
  intro s x y rest hrst hins hwhy
  obtain ⟨_, hx⟩ := exists_step_eq_next (s.facing x rest)
  obtain ⟨_, hy⟩ := exists_step_eq_next (s.facing y rest)
  obtain ⟨u, rfl, hreset, hcommand, hbusy⟩ := step_writes hx
  obtain ⟨v, rfl, hreset', hcommand', hbusy'⟩ := step_writes hy
  have hsame : ∃ w : State, u = w.facing x rest ∧ v = w.facing y rest := by
    by_cases hr : x.rst = true
    · exact ⟨s.resetStep, hreset hr, hreset' (hrst ▸ hr)⟩
    · have hr : x.rst = false := by simpa using hr
      by_cases hidle : s.st = .idle
      · have hsample : SampleAgree x y := by simpa [hr, hidle] using hwhy
        obtain ⟨w, hw, hw'⟩ := exec_facing s rest hsample
        exact ⟨w, Host.Outcome.next.inj ((hcommand hr hidle).symm.trans hw),
          Host.Outcome.next.inj ((hcommand' (hrst ▸ hr) hidle).symm.trans hw')⟩
      · rw [hbusy hr hidle, hbusy' (hrst ▸ hr) hidle]
        exact State.busyStep_facing s rest hidle hrst hins
  obtain ⟨w, rfl, rfl⟩ := hsame
  exact hx.trans ((congrArg _ (State.tick_facing_congr w rest hins)).trans hy.symm)

/-- Settles O24: with `BUSY` = 1 the step reads no command (`stepReadsOnlySampledPorts`), and every
step uses up one record and keeps the others (`step_outside`). -/
theorem busyStepIgnoresCommandPorts : Obligations.BusyStepIgnoresCommandPorts := by
  intro s x y rest hbusy hx hy hins
  have hb : s.st ≠ .idle := by simpa [State.busy] using hbusy
  refine ⟨stepReadsOnlySampledPorts s x y rest (hx.trans hy.symm) hins (.inr (.inl hb)),
    fun t ht => ?_⟩
  obtain ⟨-, hinputs⟩ := step_outside ht
  exact hinputs

end Sys2Proof.Machine

/-!
The listing (spec/30_encoding.md R79; log 17): what each kind of line puts on the ports, and which
numbers the assembler refuses.
-/

namespace Sys2Proof.Machine

/-- A port value written as a number is that value again. -/
@[simp] theorem asWord_toNat (a : Word) : asWord a.toNat = .ok a := by
  rw [asWord, if_pos a.isLt, BitVec.ofNat_toNat, BitVec.setWidth_eq]

/-! ### The numbers of command words (spec/30_encoding.md R70) -/

theorem toNat_encode (i : Instr) : (encode i).toNat = 64 * i.opcode.toNat + i.control.toNat := by
  rw [encode, BitVec.toNat_append, ← Nat.shiftLeft_add_eq_or_of_lt i.control.isLt,
    Nat.shiftLeft_eq, Nat.mul_comm]

theorem toNat_encode_sel64 {c : Nat} (hc : c < 2) :
    (encode (.sel64 0 (BitVec.ofNat 1 c))).toNat = 0x080 + c := by
  rw [toNat_encode, Instr.control, BitVec.toNat_append, BitVec.toNat_ofNat, Nat.mod_eq_of_lt hc]
  simp [Instr.opcode]

theorem toNat_encode_shl64 {n : Nat} (hn : n < 64) :
    (encode (.shl64 (BitVec.ofNat 6 n))).toNat = 0x0C0 + n := by
  rw [toNat_encode, Instr.control, BitVec.toNat_ofNat, Nat.mod_eq_of_lt hn]
  rfl

/-! ### Lines and directives (spec/30_encoding.md R79) -/

@[simp] theorem impliedNops_length (g : Settings) (n : Nat) : (impliedNops g n).length = n :=
  List.length_replicate

theorem decode_cmd_of_mem_impliedNops {g : Settings} {n : Nat} {y : Inputs}
    (h : y ∈ impliedNops g n) : decode y.cmd = .nop 0 := by
  rw [List.eq_of_mem_replicate h]
  exact decode_encode (.nop 0)

/-- A directive assembles to no record: the later lines are assembled with its settings. -/
theorem assemble_cons_of_directive {g g' : Settings} {l : Line} (rest : List Line)
    (h : assembleLine g l = .ok (g', [])) : assemble g (l :: rest) = assemble g' rest := by
  cases hrest : assemble g' rest <;> simp [assemble, h, hrest]

section
variable (g : Settings) (c n : Nat) (a b : Word)

theorem assembleLine_eq64 :
    assembleLine g (.eq64 a.toNat b.toNat) = .ok (g, [record g (.eq64 0) a b]) := by
  rw [assembleLine, asWord_toNat, asWord_toNat]
  rfl

theorem assembleLine_sel64 :
    assembleLine g (.sel64 c a.toNat b.toNat) =
      if c < 2 then .ok (g, [record g (.sel64 0 (BitVec.ofNat 1 c)) a b])
      else .error .condRange := by
  rw [assembleLine, asWord_toNat, asWord_toNat]
  rfl

theorem assembleLine_shl64 :
    assembleLine g (.shl64 a.toNat n) =
      if n < 64 then .ok (g, [record g (.shl64 (BitVec.ofNat 6 n)) a 0])
      else .error .amountRange := by
  rw [assembleLine, asWord_toNat]
  rfl

theorem assembleLine_mask :
    assembleLine g (.mask a.toNat) =
      .ok (g, record g (.mask 0) a 0 :: impliedNops g (g.k.toNat + 1)) := by
  rw [assembleLine, asWord_toNat]
  rfl

theorem assembleLine_dirH (h : HashResult) :
    assembleLine g (.dirH h.h0.toNat h.h1.toNat h.h2.toNat h.h3.toNat) =
      .ok ({ g with h := h }, []) := by
  rw [assembleLine, asWord_toNat, asWord_toNat, asWord_toNat, asWord_toNat]
  rfl

theorem assembleLine_dirK : assembleLine g (.dirK a.toNat) = .ok ({ g with k := a }, []) := by
  rw [assembleLine, asWord_toNat]
  rfl

theorem assembleLine_dirNW : assembleLine g (.dirNW a.toNat) = .ok ({ g with nw := a }, []) := by
  rw [assembleLine, asWord_toNat]
  rfl

end

/-- Settles O32: each kind of line by its own lemma, the numbers of the two commands with an operand in
the word by `toNat_encode`, and directives by `assemble_cons_of_directive`. -/
theorem listingAssemblesToCommands : Obligations.ListingAssemblesToCommands := by
  intro g c n a b
  refine ⟨rfl, assembleLine_eq64 g a b, fun hc => ?_, fun hc => ?_, fun hn => ?_, fun hn => ?_,
    ⟨_, _, assembleLine_mask g a, rfl, rfl, rfl, rfl, impliedNops_length _ _,
      fun _ => decode_cmd_of_mem_impliedNops⟩,
    ⟨_, _, rfl, rfl, rfl, rfl, rfl, impliedNops_length _ _, fun _ => decode_cmd_of_mem_impliedNops⟩,
    fun h rest => ⟨assemble_cons_of_directive rest (assembleLine_dirH g h),
      assemble_cons_of_directive rest (assembleLine_dirK g a),
      assemble_cons_of_directive rest (assembleLine_dirNW g a)⟩⟩
  · exact ⟨_, (assembleLine_sel64 g c a b).trans (if_pos hc), rfl, rfl, toNat_encode_sel64 hc⟩
  · exact (assembleLine_sel64 g c a b).trans (if_neg (by omega))
  · exact ⟨_, (assembleLine_shl64 g n a).trans (if_pos hn), rfl, toNat_encode_shl64 hn⟩
  · exact (assembleLine_shl64 g n a).trans (if_neg (by omega))

end Sys2Proof.Machine

/-!
The three units of single-step operations and their commands (spec/40_primitives.md): what each unit's
own algorithm computes, said once, then the decode step of every command that stays in IDLE.
-/

namespace Sys2Proof.Machine

/-! ### EQ unit (spec/40_primitives.md R90) -/

/-- The inner value of the EQ unit has its top bit set exactly for `d` = 0: for any other `d` below
2^63, `d - 1` is below 2^63 too, and for the rest `~d` is. -/
theorem getLsbD_63_not_and_sub_one (d : Word) :
    ((~~~d) &&& (d - 1)).getLsbD 63 = decide (d = 0) := by
  by_cases hd : d = 0
  · subst hd
    decide
  · have hpos : d.toNat ≠ 0 := fun h => hd (BitVec.eq_of_toNat_eq h)
    rw [decide_eq_false hd, BitVec.getLsbD_and, BitVec.getLsbD_not]
    cases hm : d.getLsbD 63 with
    | true => simp
    | false =>
      have hlt : d.toNat < 2 ^ 63 := BitVec.toNat_lt_of_msb_false hm
      have hmsb : (d - 1).msb = false := BitVec.msb_eq_false_iff_two_mul_lt.2 (by bv_omega)
      rw [show (d - 1).getLsbD 63 = false from hmsb, Bool.and_false]

/-- The last line of the EQ unit moves the top bit to bit 0. -/
theorem ushiftRight_63_and_one (t : Word) :
    (t >>> 63) &&& 1 = if t.getLsbD 63 then 1 else 0 := by
  rw [show (1 : Word) = BitVec.twoPow 64 0 from rfl, BitVec.and_twoPow, BitVec.getLsbD_ushiftRight]
  rfl

/-- The EQ unit decides equality (R90). -/
theorem eq64_eq_ite (x y : Word) : eq64 x y = if x = y then 1 else 0 := by
  simp only [eq64, ushiftRight_63_and_one, getLsbD_63_not_and_sub_one, decide_eq_true_eq]
  exact if_congr BitVec.xor_eq_zero_iff rfl rfl

/-! ### SEL unit (spec/40_primitives.md R92) -/

/-- The mask of the SEL unit is all-ones for `cond` = 1 and 0 for `cond` = 0. -/
theorem select64_mask (c : BitVec 1) :
    ~~~(c.setWidth 64 - 1 : Word) = if c = 1 then BitVec.allOnes 64 else 0#64 := by
  revert c
  decide

/-- The SEL unit returns its first operand for `cond` = 1 and its second for `cond` = 0 (R92). -/
theorem select64_eq_ite (c : BitVec 1) (x y : Word) :
    select64 c x y = if c = 1 then x else y := by
  rw [select64, select64_mask]
  split
  · rw [BitVec.allOnes_and, BitVec.not_allOnes, BitVec.zero_and, BitVec.or_zero]
  · rw [BitVec.zero_and, BitVec.not_zero, BitVec.allOnes_and, BitVec.zero_or]

/-- Settles O2: the unit is the choice of a whole operand (`select64_eq_ite`), so of each bit. -/
theorem selUnitReturnsChosenOperand : Obligations.SelUnitReturnsChosenOperand := by
  refine fun x y => ⟨select64_eq_ite 1 x y, select64_eq_ite 0 x y, fun c b => ?_⟩
  rw [select64_eq_ite]
  split <;> rfl

/-! ### SHL unit (spec/40_primitives.md R94) -/

/-- The comparison of a stage finds whether the budget has the stage's bit. -/
theorem eq64_and_one_shiftLeft (r : Word) {t : Nat} (ht : t < 64) :
    eq64 (r &&& (1 : Word) <<< t) ((1 : Word) <<< t) = if r.getLsbD t then 1 else 0 := by
  have hs : (1 : Word) <<< t = BitVec.twoPow 64 t := rfl
  have hne : (0 : Word) ≠ BitVec.twoPow 64 t := fun h => by
    simpa [ht] using congrArg (·.getLsbD t) h
  rw [eq64_eq_ite, hs, BitVec.and_twoPow]
  cases r.getLsbD t
  · exact if_neg hne
  · exact if_pos rfl

/-- A stage shifts and pays for it when the budget has the stage's bit, and does nothing otherwise. -/
theorem shlStage_eq_ite (vr : Word × Word) {t : Nat} (ht : t < 64) :
    shlStage vr t =
      if vr.2.getLsbD t then (vr.1 <<< (2 ^ t), vr.2 - (1 : Word) <<< t) else vr := by
  simp only [shlStage, eq64_and_one_shiftLeft vr.2 ht, select64_eq_ite]
  cases vr.2.getLsbD t <;> rfl

/-- Paying for stage `t` out of a budget that has its bit takes `2^t` off it. -/
theorem toNat_sub_one_shiftLeft {r : Word} {t : Nat} (h : r.getLsbD t = true) :
    2 ^ t ≤ r.toNat ∧ (r - (1 : Word) <<< t).toNat = r.toNat - 2 ^ t := by
  have hle : 2 ^ t ≤ r.toNat := Nat.ge_two_pow_of_testBit h
  have hs : ((1 : Word) <<< t).toNat = 2 ^ t :=
    BitVec.toNat_twoPow_of_lt (BitVec.lt_of_getLsbD h)
  exact ⟨hle, by rw [BitVec.toNat_sub_of_le (by rw [BitVec.le_def, hs]; exact hle), hs]⟩

/-- No stage changes what the value would be with the whole remaining budget applied. -/
theorem shlStage_shiftLeft (vr : Word × Word) {t : Nat} (ht : t < 64) :
    (shlStage vr t).1 <<< (shlStage vr t).2.toNat = vr.1 <<< vr.2.toNat := by
  rw [shlStage_eq_ite vr ht]
  split
  next h =>
    obtain ⟨hle, hsub⟩ := toNat_sub_one_shiftLeft h
    rw [hsub, ← BitVec.shiftLeft_add, Nat.add_sub_cancel' hle]
  next => rfl

/-- Stage `t` leaves of a budget below `2^(t+1)` its remainder by `2^t`. -/
theorem toNat_shlStage_budget {vr : Word × Word} {t : Nat} (ht : t < 64)
    (h : vr.2.toNat < 2 ^ (t + 1)) : (shlStage vr t).2.toNat = vr.2.toNat % 2 ^ t := by
  have hsplit : vr.2.toNat = vr.2.toNat % 2 ^ t + 2 ^ t * (vr.2.getLsbD t).toNat := by
    rw [← BitVec.testBit_toNat, Nat.toNat_testBit, ← Nat.mod_pow_succ, Nat.mod_eq_of_lt h]
  rw [shlStage_eq_ite vr ht]
  split
  next hb =>
    rw [hb, Bool.toNat_true, Nat.mul_one] at hsplit
    rw [(toNat_sub_one_shiftLeft hb).2]
    omega
  next hb =>
    rwa [Bool.eq_false_of_not_eq_true hb, Bool.toNat_false, Nat.mul_zero, Nat.add_zero] at hsplit

/-- The six stages come in the order of R94: after `n` of them stage `5 - n` is next. -/
theorem shlAfter_succ {n : Nat} (hn : n < 6) (x : Word) (amount : BitVec 6) :
    shlAfter (n + 1) x amount = shlStage (shlAfter n x amount) (5 - n) := by
  interval_cases n <;> rfl

/-- The budget after `n` stages (R94). -/
theorem toNat_shlAfter_budget {n : Nat} (hn : n ≤ 6) (x : Word) (amount : BitVec 6) :
    (shlAfter n x amount).2.toNat = amount.toNat % 2 ^ (6 - n) := by
  induction n with
  | zero =>
    have := amount.isLt
    show (amount.setWidth 64).toNat = _
    rw [BitVec.toNat_setWidth]
    omega
  | succ n ih =>
    have hprev := ih (by omega)
    rw [show 6 - n = 5 - n + 1 by omega] at hprev
    rw [shlAfter_succ (by omega), toNat_shlStage_budget (by omega), hprev,
      show 6 - (n + 1) = 5 - n by omega, Nat.mod_mod_of_dvd _ (Nat.pow_dvd_pow 2 (Nat.le_succ _))]
    rw [hprev]
    exact Nat.mod_lt _ (Nat.two_pow_pos _)

/-- After any number of stages the value lacks the shift by the remaining budget. -/
theorem shlAfter_shiftLeft {n : Nat} (hn : n ≤ 6) (x : Word) (amount : BitVec 6) :
    (shlAfter n x amount).1 <<< (shlAfter n x amount).2.toNat = x <<< amount.toNat := by
  induction n with
  | zero =>
    have := amount.isLt
    show x <<< (amount.setWidth 64).toNat = _
    rw [BitVec.toNat_setWidth, Nat.mod_eq_of_lt (by omega)]
  | succ n ih =>
    rw [shlAfter_succ (by omega), shlStage_shiftLeft _ (by omega), ih (by omega)]

/-- The SHL unit is the left shift: after its six stages the budget is spent (R94). -/
theorem shl64_eq_shiftLeft (x : Word) (amount : BitVec 6) :
    shl64 x amount = x <<< amount.toNat := by
  have hspent : (shlAfter 6 x amount).2.toNat = 0 := by
    rw [toNat_shlAfter_budget (Nat.le_refl 6)]
    exact Nat.mod_one _
  have h := shlAfter_shiftLeft (Nat.le_refl 6) x amount
  rwa [hspent, BitVec.shiftLeft_zero] at h

/-! ### The decode step of a command (spec/30_encoding.md R76) -/

/-- A decode step's event is its command's (spec/00_scope.md R14). -/
theorem event_of_accepts {s : State} {i : Instr} (h : Accepts s i) : s.event = commandEvent i := by
  obtain ⟨hidle, hrst, rfl⟩ := h
  exact State.event_of_idle hrst hidle

/-- A command that completes in its own step writes `R` and `DONE` and no other register (R91, R93,
R95). -/
theorem step_regs_of_complete {s : State} {i : Instr} {x : Word} (h : Accepts s i)
    (he : exec i s = .next (s.complete x)) :
    ∃ t, step s = .next t ∧ t.regs = { s.regs with r := x, done := true } :=
  ⟨_, step_of_accepts h he, rfl⟩

/-- A command that starts nothing keeps the state in its own step, and the step every register (R97,
spec/30_encoding.md R73). -/
theorem accepts_of_event_idle {s : State} {i : Instr} (hi : commandEvent i = .idle)
    (h : Accepts s i) :
    exec i s = .next s ∧ (∃ t, step s = .next t ∧ t.regs = s.regs) ∧ s.event = .idle :=
  have he : exec i s = .next s := exec_of_event_idle hi s
  ⟨he, ⟨_, step_of_accepts h he, rfl⟩, (event_of_accepts h).trans hi⟩

/-- Settles O8: the command completes with the EQ unit's answer, which is the comparison
(`eq64_eq_ite`). -/
theorem eq64WritesComparison : Obligations.Eq64WritesComparison := by
  intro s ct h
  have he : exec (.eq64 ct) s = .next (s.complete (if s.now.a = s.now.b then 1 else 0)) := by
    rw [← eq64_eq_ite]
    rfl
  exact ⟨he, step_regs_of_complete h he, event_of_accepts h⟩

/-- Settles O9: the command completes with the SEL unit's answer, which is the operand chosen
(`select64_eq_ite`). -/
theorem sel64WritesChosenOperand : Obligations.Sel64WritesChosenOperand := by
  intro s ign cond h
  have he : exec (.sel64 ign cond) s =
      .next (s.complete (if cond = 1 then s.now.a else s.now.b)) := by
    rw [← select64_eq_ite]
    rfl
  exact ⟨he, step_regs_of_complete h he, event_of_accepts h⟩

/-- Settles O10: the command completes with the SHL unit's answer, which is the shift
(`shl64_eq_shiftLeft`). -/
theorem shl64WritesShiftedOperand : Obligations.Shl64WritesShiftedOperand := by
  intro s amount h
  have he : exec (.shl64 amount) s = .next (s.complete (s.now.a <<< amount.toNat)) := by
    rw [← shl64_eq_shiftLeft]
    rfl
  exact ⟨he, step_regs_of_complete h he, event_of_accepts h⟩

/-! ### Ignored bits (spec/30_encoding.md R73) -/

theorem exec_canonical (i : Instr) (s : State) : exec i.canonical s = exec i s := by
  cases i <;> rfl

theorem commandEvent_canonical (i : Instr) : commandEvent i.canonical = commandEvent i := by
  rw [commandEvent_eq_opcodeEvent, opcode_canonical, ← commandEvent_eq_opcodeEvent]

/-- Settles O11: NOP and the reserved codes start nothing (`accepts_of_event_idle`), and no command's
meaning or event reads its ignored bits. -/
theorem nopAndReservedChangeNothing : Obligations.NopAndReservedChangeNothing :=
  fun _ _ => ⟨accepts_of_event_idle rfl, accepts_of_event_idle rfl, accepts_of_event_idle rfl,
    fun i => ⟨(exec_canonical i _).symm, (commandEvent_canonical i).symm⟩⟩

end Sys2Proof.Machine

/-!
MASK (spec/41_mask_builder.md): its accept step, ROUND step and FIN step, then the whole operation.
The registers are known at every step of it: after the accept step and `n` rounds they are
`State.maskRegs n`, which each ROUND step moves on by one round (`Regs.round`).
-/

namespace Sys2Proof.Machine

/-! ### The ROUND step (spec/41_mask_builder.md R114) -/

/-- One round's term in numbers: one bit where the position lies in word `w`, and otherwise 0. -/
theorem roundTerm_eq_ite (p w : Word) :
    roundTerm p w = if p.toNat / 64 = w.toNat then (1 : Word) <<< (p.toNat % 64) else 0 := by
  have hword : posWord p = w ↔ p.toNat / 64 = w.toNat := by
    rw [← toNat_posWord, BitVec.toNat_inj]
  rw [roundTerm, eq64_eq_ite, shl64_eq_shiftLeft, toNat_posBit]
  by_cases h : posWord p = w
  · rw [if_pos h, if_pos (hword.1 h)]
  · rw [if_neg h, if_neg (h ∘ hword.2)]
    exact BitVec.zero_shiftLeft _

/-- While an operation runs the sequencer goes on (spec/30_encoding.md R75). -/
theorem step_of_busy {s : State} (hr : s.now.rst = false) (hb : s.st ≠ .idle) :
    step s = .next s.busyStep.tick := by
  obtain ⟨t, ht⟩ := exists_step_eq_next s
  obtain ⟨u, rfl, -, -, hbusy⟩ := step_writes ht
  rw [ht, hbusy hr hb]

theorem step_of_round {s : State} (hr : s.now.rst = false) (h : s.st = .round) :
    step s = .next s.roundStep.tick := by
  rw [step_of_busy hr (by simp [h]), State.busyStep_of_round h]

theorem step_of_finMask {s : State} (hr : s.now.rst = false) (h : s.st = .fin)
    (hm : s.mode = .mask) : step s = .next s.finMask.tick := by
  rw [step_of_busy hr (by simp [h]), State.busyStep_of_finMask h hm]

/-- What a ROUND step makes of the registers, with the position collaborator's answers given. -/
def Regs.round (g : Regs) (position : HashResult → Word → Word) : Regs :=
  { g with
    m := g.m ||| roundTerm (position g.hr g.j) g.i
    j := g.j + 1
    st := nxt g.mode g.i (g.j + 1) g.kr g.nwr }

theorem State.roundStep_regs (s : State) : s.roundStep.tick.regs = s.regs.round s.position := rfl

/-- Settles O14: the ROUND step is the same in either mode (`step_of_round`), and the term it ORs
into `M` is the one bit of the position, or 0 (`roundTerm_eq_ite`). -/
theorem roundStepAccumulatesOneRound : Obligations.RoundStepAccumulatesOneRound := by
  refine fun s hst hr => ⟨⟨_, step_of_round hr hst, ?_⟩, State.event_of_round hr hst⟩
  rw [← roundTerm_eq_ite]
  rfl

/-! ### The FIN step (spec/41_mask_builder.md R116) -/

/-- Settles O17: in MASK mode the FIN step is `State.finMask` (`step_of_finMask`), which writes `R`,
`DONE` and `ST` alone. -/
theorem finStepOfMaskWritesMask : Obligations.FinStepOfMaskWritesMask :=
  fun _ hst hm hr => ⟨⟨_, step_of_finMask hr hst hm, rfl⟩, State.event_of_fin hr hst⟩

/-! ### The accept step (spec/41_mask_builder.md R113) -/

theorem step_of_accepts_mask {s : State} {ct : BitVec 6} (h : Accepts s (.mask ct)) :
    step s = .next s.acceptMask.tick :=
  step_of_accepts h (exec_of_opcode_mask rfl s)

/-- The accept step goes straight to FIN when there is no round to do (R112). -/
theorem nxt_mask_zero (i kr nwr : Word) :
    nxt .mask i 0 kr nwr = if kr = 0 then .fin else .round :=
  if_congr eq_comm rfl rfl

/-- Settles O12: MASK's meaning is `State.acceptMask`, whose `nxt` compares `J` = 0 with the `K`
being latched (`nxt_mask_zero`). -/
theorem maskAcceptLatchesOperands : Obligations.MaskAcceptLatchesOperands := by
  intro s ct h
  rw [← nxt_mask_zero s.now.a s.now.k s.nwr]
  exact ⟨exec_of_opcode_mask rfl s, ⟨_, step_of_accepts_mask h, rfl⟩, event_of_accepts h⟩

/-! ### Runs and traces in two parts (spec/00_scope.md R14) -/

/-- CORE stops at no step (spec/60_exceptions.md R140). -/
theorem exists_run_eq_next (n : Nat) (s : State) : ∃ t, run n s = .next t := by
  induction n generalizing s with
  | zero => exact ⟨s, rfl⟩
  | succ n ih =>
    obtain ⟨u, hu⟩ := exists_step_eq_next s
    rw [run, hu]
    exact ih u

theorem run_add {n : Nat} {s t : State} (h : run n s = .next t) (p : Nat) :
    run (n + p) s = run p t := by
  induction n generalizing s with
  | zero =>
    cases h
    rw [Nat.zero_add]
  | succ n ih =>
    obtain ⟨u, hu⟩ := exists_step_eq_next s
    rw [run, hu] at h
    rw [Nat.succ_add, run, hu]
    exact ih h

theorem trace_add {n : Nat} {s t : State} (h : run n s = .next t) (p : Nat) :
    trace (n + p) s = trace n s ++ trace p t := by
  induction n generalizing s with
  | zero =>
    cases h
    rw [Nat.zero_add]
    rfl
  | succ n ih =>
    obtain ⟨u, hu⟩ := exists_step_eq_next s
    rw [run, hu] at h
    rw [Nat.succ_add, trace, trace, hu]
    exact congrArg (s.event :: ·) (ih h)

/-! ### A running MASK (spec/41_mask_builder.md R111, R115) -/

/-- The registers after the accept step of the MASK accepted in `s` and `n` rounds of it. -/
def State.maskRegs (s : State) (n : Nat) : Regs :=
  { s.regs with
    mode := .mask, hr := s.now.h, kr := s.now.k, i := s.now.a, j := BitVec.ofNat 64 n,
    m := maskAcc s.position s.now.h s.now.a n, done := false,
    st := nxt .mask s.now.a (BitVec.ofNat 64 n) s.now.k s.nwr }

theorem State.acceptMask_regs (s : State) : s.acceptMask.tick.regs = s.maskRegs 0 := rfl

/-- A ROUND step does round `n`, the next one of `buildMask` (R110, R115). -/
theorem State.maskRegs_round (s : State) (n : Nat) :
    (s.maskRegs n).round s.position = s.maskRegs (n + 1) := by
  have hj : BitVec.ofNat 64 n + 1 = BitVec.ofNat 64 (n + 1) := (BitVec.ofNat_add n 1).symm
  rw [State.maskRegs, State.maskRegs, Regs.round, hj]
  rfl

/-- While rounds are still to be done `nxt` enters ROUND: `J` has not reached `K`, and a count of
rounds below `K` does not wrap (R112). -/
theorem nxt_mask_of_lt {k : Word} {n : Nat} (h : n < k.toNat) (i nwr : Word) :
    nxt .mask i (BitVec.ofNat 64 n) k nwr = .round := by
  have hk := k.isLt
  have hne : BitVec.ofNat 64 n ≠ k := fun e => by
    rw [← e, BitVec.toNat_ofNat, Nat.mod_eq_of_lt (by omega)] at h
    exact absurd h (Nat.lt_irrefl n)
  exact if_neg hne

/-- When all rounds are done `nxt` enters FIN (R112). -/
theorem nxt_mask_of_toNat (i k nwr : Word) :
    nxt .mask i (BitVec.ofNat 64 k.toNat) k nwr = .fin :=
  if_pos (by simp)

/-- `u` is what the MASK accepted in `s` has come to after its accept step and `n` rounds, and no
reset comes at the edges that it has still to take. -/
structure MaskRuns (s : State) (n : Nat) (u : State) : Prop where
  /-- the registers are known -/
  regs : u.regs = s.maskRegs n
  /-- the collaborator answers as it did (spec/00_scope.md R13) -/
  position : u.position = s.position
  /-- the ROUND steps left and the FIN step come without reset -/
  noReset : NoReset (s.now.k.toNat - n + 1) u

section
variable {s u t : State} {n : Nat}

theorem MaskRuns.of_accepts {ct : BitVec 6} (h : Accepts s (.mask ct))
    (hr : NoReset (maskSteps s.now.k) s) : MaskRuns s 0 s.acceptMask.tick :=
  ⟨s.acceptMask_regs, rfl, hr.step (step_of_accepts_mask h)⟩

theorem MaskRuns.st_eq (h : MaskRuns s n u) :
    u.st = nxt .mask s.now.a (BitVec.ofNat 64 n) s.now.k s.nwr := congrArg Regs.st h.regs

theorem MaskRuns.j_eq (h : MaskRuns s n u) : u.j = BitVec.ofNat 64 n := congrArg Regs.j h.regs

/-- Until its FIN step MASK shows `BUSY` = 1, `DONE` = 0 and the old `R` (R111). -/
theorem MaskRuns.shows_busy (h : MaskRuns s n u) :
    u.done = false ∧ u.busy = true ∧ u.r = s.r := by
  have hbusy : u.st ≠ .idle := h.st_eq.trans_ne (nxt_ne_idle _ _ _ _ _)
  exact ⟨congrArg Regs.done h.regs, by simpa [State.busy] using hbusy, congrArg Regs.r h.regs⟩

/-- While rounds are left, the step is a ROUND step: it asks for round `n` and does it (R114). -/
theorem MaskRuns.step (h : MaskRuns s n u) (hn : n < s.now.k.toNat) :
    Machine.step u = .next u.roundStep.tick ∧ u.event = .pos (BitVec.ofNat 64 n) ∧
      MaskRuns s (n + 1) u.roundStep.tick := by
  have hst : u.st = .round := h.st_eq.trans (nxt_mask_of_lt hn _ _)
  have hleft : s.now.k.toNat - n + 1 = s.now.k.toNat - (n + 1) + 1 + 1 := by omega
  have hreset := hleft ▸ h.noReset
  have hstep := step_of_round h.noReset.now hst
  have hregs : u.roundStep.tick.regs = s.maskRegs (n + 1) := by
    rw [State.roundStep_regs, h.regs, h.position, State.maskRegs_round]
  exact ⟨hstep, by rw [State.event_of_round h.noReset.now hst, h.j_eq],
    hregs, h.position, hreset.step hstep⟩

/-- `m` steps of the rounds that are left do `m` rounds, and ask for them in order (R117). -/
theorem MaskRuns.rounds {m : Nat} (h : MaskRuns s n u) (hm : n + m ≤ s.now.k.toNat)
    (ht : run m u = .next t) :
    MaskRuns s (n + m) t ∧
      trace m u = (List.range' n m).map fun j => .pos (BitVec.ofNat 64 j) := by
  induction m generalizing n u with
  | zero =>
    cases ht
    exact ⟨h, rfl⟩
  | succ m ih =>
    obtain ⟨hstep, hevent, hnext⟩ := h.step (by omega)
    rw [run, hstep] at ht
    obtain ⟨hruns, htrace⟩ := ih hnext (by omega) ht
    rw [trace, hstep, hevent, List.range'_succ, List.map_cons, ← htrace]
    exact ⟨by rwa [Nat.succ_add_eq_add_succ] at hruns, rfl⟩

/-- When all rounds are done, the FIN step comes, which writes the whole mask to `R` (R116). -/
theorem MaskRuns.fin (h : MaskRuns s s.now.k.toNat u) :
    Machine.step u = .next u.finMask.tick ∧ u.event = .fin ∧
      u.finMask.tick.regs =
        { s.maskRegs s.now.k.toNat with
          r := buildMask s.position s.now.h s.now.k s.now.a, done := true, st := .idle } := by
  have hst : u.st = .fin := h.st_eq.trans (nxt_mask_of_toNat _ _ _)
  have hmode : u.mode = .mask := congrArg Regs.mode h.regs
  have hm : u.m = buildMask s.position s.now.h s.now.k s.now.a := congrArg Regs.m h.regs
  refine ⟨step_of_finMask h.noReset.now hst hmode, State.event_of_fin h.noReset.now hst, ?_⟩
  rw [← h.regs, ← hm]
  rfl

end

/-- Settles O38: the accept step starts with no round done (`MaskRuns.of_accepts`), `K` steps do the
`K` rounds (`MaskRuns.rounds`), and the FIN step shows the mask (`MaskRuns.fin`). -/
theorem maskOperationComputesBuildMask : Obligations.MaskOperationComputesBuildMask := by
  intro s ct h hr
  have hstart := MaskRuns.of_accepts h hr
  obtain ⟨u, hu⟩ := exists_run_eq_next s.now.k.toNat s.acceptMask.tick
  obtain ⟨hruns, htrace⟩ := hstart.rounds (by omega) hu
  rw [Nat.zero_add] at hruns
  obtain ⟨hstep, hevent, hregs⟩ := hruns.fin
  refine ⟨⟨u.finMask.tick, ?_, ?_⟩, fun n v hpos hn hv => ?_, ?_⟩
  · rw [maskSteps, run, step_of_accepts_mask h]
    show run (s.now.k.toNat + 1) s.acceptMask.tick = _
    rw [run_add hu, run, hstep]
    rfl
  · have field {α : Type} (f : Regs → α) := congrArg f hregs
    have hj : BitVec.ofNat 64 s.now.k.toNat = s.now.k := by simp
    exact ⟨rfl, rfl, field Regs.r, field Regs.v, field Regs.nwr, field Regs.mode, field Regs.hr,
      field Regs.kr, field Regs.i, (field Regs.j).trans hj, rfl⟩
  · obtain ⟨m, rfl⟩ : ∃ m, n = m + 1 := ⟨n - 1, by omega⟩
    rw [maskSteps] at hn
    rw [run, step_of_accepts_mask h] at hv
    obtain ⟨hmid, -⟩ := hstart.rounds (by omega) hv
    exact hmid.shows_busy
  · rw [maskSteps, trace, step_of_accepts_mask h, event_of_accepts h]
    show _ :: trace (s.now.k.toNat + 1) s.acceptMask.tick = _
    rw [trace_add hu, htrace, trace, hstep, hevent, maskTrace, roundEvents, List.range_eq_range']
    rfl

end Sys2Proof.Machine

/-!
TEST (spec/42_test_aggregator.md): its accept step, WORD step and FIN step, the trace of a running
TEST, which needs no premise on the array, then the whole operation. `TestScans` says what a TEST
has come to at each of its steps; its premise `State.ReadsAs` on the array asks nothing where the
loops of R131 run zero times.
-/

namespace Sys2Proof.Machine

/-! ### The accept step (spec/42_test_aggregator.md R122) -/

/-- `nxt` where a word starts, with no round of it done (R112, R122, R124). -/
theorem nxt_test_zero (i kr nwr : Word) :
    nxt .test i 0 kr nwr = if i = nwr then .fin else if kr = 0 then .word else .round :=
  if_congr Iff.rfl rfl (if_congr eq_comm rfl rfl)

/-- Settles O13: TEST's meaning is `State.acceptTest`, whose `nxt` compares `I` = 0 and `J` = 0 with
the `NW` and `K` being latched (`nxt_test_zero`). -/
theorem testAcceptLatchesOperands : Obligations.TestAcceptLatchesOperands := by
  intro s ct h
  have hst : s.acceptTest.st =
      if s.now.nw = 0 then .fin else if s.now.k = 0 then .word else .round :=
    (nxt_test_zero 0 s.now.k s.now.nw).trans (if_congr eq_comm rfl rfl)
  have he : exec (.test ct) s = .next s.acceptTest := exec_of_opcode_test rfl s
  rw [← hst]
  exact ⟨⟨_, he, rfl, rfl, rfl, rfl⟩, ⟨_, _, he, step_of_accepts h he, rfl⟩, event_of_accepts h⟩

/-! ### The WORD step (spec/42_test_aggregator.md R124) -/

theorem step_of_word {s : State} (hr : s.now.rst = false) (h : s.st = .word) :
    step s = .next s.wordStep.tick := by
  rw [step_of_busy hr (by simp [h]), State.busyStep_of_word h]

/-- Settles O15: the word that `State.wordStep` aggregates is the array's
(`State.memRead_of_answer`), and the next word starts with no round done (`nxt_test_zero`). -/
theorem wordStepAccumulatesOneWord : Obligations.WordStepAccumulatesOneWord := by
  intro s w hst _ hr hstable hw
  refine ⟨⟨_, step_of_word hr hst, ?_⟩, State.event_of_word hr hst⟩
  rw [← nxt_test_zero, ← State.memRead_of_answer hstable hw]
  rfl

/-! ### The FIN step (spec/42_test_aggregator.md R126) -/

theorem step_of_finTest {s : State} (hr : s.now.rst = false) (h : s.st = .fin)
    (hm : s.mode = .test) : step s = .next s.finTest.tick := by
  rw [step_of_busy hr (by simp [h]), State.busyStep_of_finTest h hm]

/-- Settles O18: the zero detect of `State.finTest` is the EQ unit against 0 (`eq64_eq_ite`). -/
theorem finStepOfTestWritesZeroDetect : Obligations.FinStepOfTestWritesZeroDetect := by
  intro s hst hm hr
  refine ⟨⟨_, step_of_finTest hr hst hm, ?_⟩, State.event_of_fin hr hst⟩
  rw [← eq64_eq_ite]
  rfl

/-! ### The trace of a running TEST (spec/42_test_aggregator.md R128) -/

/-- The events of words `i` to `i + n - 1` of a TEST with `k` rounds, and of its FIN step. -/
def scanEvents (k i n : Nat) : List Event :=
  (List.range' i n).flatMap (fun i => roundEvents k ++ [.read (BitVec.ofNat 64 i)]) ++ [.fin]

theorem scanEvents_zero (k i : Nat) : scanEvents k i 0 = [.fin] := rfl

theorem scanEvents_succ (k i n : Nat) :
    scanEvents k i (n + 1) =
      roundEvents k ++ .read (BitVec.ofNat 64 i) :: scanEvents k (i + 1) n := by
  simp [scanEvents, List.range'_succ]

theorem testTrace_eq_scanEvents (k nw : Word) :
    testTrace k nw = .start .test :: scanEvents k.toNat 0 nw.toNat := by
  rw [testTrace, scanEvents, List.range_eq_range']

/-- The events from the WORD step of word `I` to the FIN step, both included. -/
def State.eventsFromWord (s : State) : List Event :=
  .read s.i :: scanEvents s.kr.toNat (s.i.toNat + 1) (s.nwr.toNat - (s.i.toNat + 1))

/-- The events that the TEST running in `s` has still to emit, its FIN step's included. -/
def State.testEventsLeft (s : State) : List Event :=
  match s.st with
  | .idle => []
  | .round =>
    (List.range' s.j.toNat (s.kr.toNat - s.j.toNat)).map (fun j => .pos (BitVec.ofNat 64 j)) ++
      s.eventsFromWord
  | .word => s.eventsFromWord
  | .fin => [.fin]

theorem State.testEventsLeft_round {s : State} (h : s.st = .round) :
    s.testEventsLeft =
      (List.range' s.j.toNat (s.kr.toNat - s.j.toNat)).map (fun j => .pos (BitVec.ofNat 64 j)) ++
        s.eventsFromWord := by
  rw [State.testEventsLeft, h]
theorem State.testEventsLeft_word {s : State} (h : s.st = .word) :
    s.testEventsLeft = s.eventsFromWord := by rw [State.testEventsLeft, h]
theorem State.testEventsLeft_fin {s : State} (h : s.st = .fin) : s.testEventsLeft = [.fin] := by
  rw [State.testEventsLeft, h]

/-- A counter below its bound counts up by one (R24). -/
theorem toNat_add_one_of_lt {a b : Word} (h : a.toNat < b.toNat) : (a + 1).toNat = a.toNat + 1 := by
  bv_omega

/-- Where a TEST enters word `I`, every event from word `I` on is still to come. -/
theorem testEventsLeft_enterWord {s : State} (hst : s.st = nxt .test s.i 0 s.kr s.nwr)
    (hj : s.j = 0) (hi : s.i.toNat ≤ s.nwr.toNat) :
    s.testEventsLeft = scanEvents s.kr.toNat s.i.toNat (s.nwr.toNat - s.i.toNat) := by
  by_cases he : s.i = s.nwr
  · rw [nxt_test_zero, if_pos he] at hst
    rw [State.testEventsLeft_fin hst, he, Nat.sub_self, scanEvents_zero]
  · have hlt : s.i.toNat < s.nwr.toNat := Nat.lt_of_le_of_ne hi (he ∘ BitVec.eq_of_toNat_eq)
    have hscan : scanEvents s.kr.toNat s.i.toNat (s.nwr.toNat - s.i.toNat) =
        roundEvents s.kr.toNat ++ s.eventsFromWord := by
      have hcount : s.nwr.toNat - s.i.toNat = s.nwr.toNat - (s.i.toNat + 1) + 1 := by omega
      rw [hcount, scanEvents_succ, BitVec.ofNat_toNat, BitVec.setWidth_eq, State.eventsFromWord]
    rw [hscan]
    rw [nxt_test_zero, if_neg he] at hst
    by_cases hk : s.kr = 0
    · rw [if_pos hk] at hst
      rw [State.testEventsLeft_word hst, hk]
      rfl
    · rw [if_neg hk] at hst
      rw [State.testEventsLeft_round hst, hj, roundEvents, List.range_eq_range']
      rfl

section
variable {s t u : State}

/-- Before FIN a step of a running TEST emits the first event that is left. -/
theorem TestRuns.testEventsLeft_eq (h : TestRuns s) (hs : Machine.step s = .next t)
    (hfin : s.st ≠ .fin) : s.testEventsLeft = s.event :: t.testEventsLeft := by
  obtain ⟨-, hround, hword, -⟩ := h.control
  rcases h.step_cases hs with ⟨hst, rfl⟩ | ⟨hst, rfl⟩ | ⟨hst, -⟩
  · obtain ⟨hj, hi⟩ := hround hst
    have hsucc := toNat_add_one_of_lt hj
    have hcount : s.kr.toNat - s.j.toNat = s.kr.toNat - (s.j.toNat + 1) + 1 := by omega
    have hsame : s.roundStep.tick.eventsFromWord = s.eventsFromWord := rfl
    have hnext : s.roundStep.tick.st = nxt .test s.i (s.j + 1) s.kr s.nwr := by
      rw [State.tick_st, State.roundStep_st, h.mode]
    rw [State.event_of_round h.now_rst hst, State.testEventsLeft_round hst, hcount,
      List.range'_succ, List.map_cons, BitVec.ofNat_toNat, BitVec.setWidth_eq, List.cons_append,
      ← hsame, ← hsucc]
    rcases nxt_test_cases s.i (s.j + 1) s.kr s.nwr with ⟨e, -⟩ | ⟨-, e, hn⟩ | ⟨-, -, hn⟩
    · exact absurd (e ▸ hi h.mode) (Nat.lt_irrefl _)
    · rw [State.testEventsLeft_word (hnext.trans hn), e, Nat.sub_self]
      rfl
    · rw [State.testEventsLeft_round (hnext.trans hn)]
      rfl
  · obtain ⟨-, -, hi⟩ := hword hst
    have hsucc := toNat_add_one_of_lt hi
    rw [State.event_of_word h.now_rst hst, State.testEventsLeft_word hst, State.eventsFromWord,
      ← hsucc, testEventsLeft_enterWord (s := s.wordStep.tick) rfl rfl (toNat_add_one_le hi)]
    rfl
  · exact absurd hst hfin

/-- The steps that a TEST has left emit the events that it has left: a function of the counters and
their bounds, whatever the array holds. -/
theorem TestRuns.trace_eq {n : Nat} (h : TestRuns s) (hn : s.testStepsLeft = n) :
    trace n s = s.testEventsLeft := by
  induction n generalizing s with
  | zero =>
    obtain ⟨m, hm⟩ := h.exists_testStepsLeft
    omega
  | succ n ih =>
    obtain ⟨t, ht⟩ := exists_step_eq_next s
    rw [trace, ht]
    by_cases hfin : s.st = .fin
    · obtain rfl : n = 0 := by
        rw [State.testStepsLeft_fin hfin] at hn
        omega
      rw [State.event_of_fin h.now_rst hfin, State.testEventsLeft_fin hfin]
      rfl
    · have hleft := h.testStepsLeft_eq ht hfin
      rw [h.testEventsLeft_eq ht hfin, ← ih (h.step ht hfin) (by omega)]

end

/-- The trace of TEST from its accept step on, with no premise on the array (R128). -/
theorem trace_of_accepts_test {s : State} {ct : BitVec 6} (h : Accepts s (.test ct))
    (hr : NoReset (testSteps s.now.k s.now.nw) s) :
    trace (testSteps s.now.k s.now.nw) s = testTrace s.now.k s.now.nw := by
  rw [testSteps_eq_testStepsLeft_accept, trace, step_of_accepts_test h, event_of_accepts h,
    testTrace_eq_scanEvents]
  show _ :: trace _ s.acceptTest.tick = _
  rw [(TestRuns.of_accepts h hr).trace_eq rfl,
    testEventsLeft_enterWord (s := s.acceptTest.tick) rfl rfl (Nat.zero_le _)]
  rfl

/-! ### The accumulator of the mask builder (spec/41_mask_builder.md R115) -/

theorem maskInv_exec {i : Instr} {s u : State} (hidle : s.st = .idle) (h : exec i s = .next u) :
    MaskInv u := by
  obtain rfl | ⟨x, rfl⟩ | ⟨ct, -, rfl⟩ | ⟨ct, -, rfl⟩ := exec_cases h
  · exact fun hb => absurd hidle hb
  · exact fun hb => absurd hidle hb
  · exact fun _ => rfl
  · exact fun _ => rfl

/-- A ROUND step is the next round of `buildMask` (R110). -/
theorem MaskInv.roundStep {s : State} (hm : MaskInv s) (hc : ControlInv s)
    (hround : s.st = .round) : MaskInv s.roundStep := by
  intro _
  obtain ⟨-, hcount, -, -⟩ := hc
  obtain ⟨hj, -⟩ := hcount hround
  show s.m ||| roundTerm (s.position s.hr s.j) s.i = maskAcc s.position s.hr s.i (s.j + 1).toNat
  rw [toNat_add_one_of_lt hj, maskAcc, ← hm (by simp [hround]), BitVec.ofNat_toNat,
    BitVec.setWidth_eq]

/-- The edge writes none of what the invariant reads. -/
theorem MaskInv.tick {s : State} (hm : MaskInv s) : MaskInv s.tick := hm

/-- A ROUND step goes on with the mask; the accept and WORD steps start it again. -/
theorem MaskInv.of_step {s t : State} (hm : MaskInv s) (hc : ControlInv s)
    (h : step s = .next t) : MaskInv t := by
  rcases step_cases h with ⟨-, rfl⟩ | ⟨-, hidle, u, he, rfl⟩ | ⟨-, hround, rfl⟩ | ⟨-, -, rfl⟩ |
    ⟨-, -, -, rfl⟩ | ⟨-, -, -, rfl⟩
  · exact fun hb => absurd rfl hb
  · exact (maskInv_exec hidle he).tick
  · exact (hm.roundStep hc hround).tick
  · exact fun _ => rfl
  · exact fun hb => absurd rfl hb
  · exact fun hb => absurd rfl hb

/-! ### The aggregator on empty loops (spec/42_test_aggregator.md R131) -/

/-- An empty mask finds nothing absent, whatever the word. -/
theorem aggregate_zero_mask (v word : Word) : aggregate v word 0 = v := by
  simp [aggregate]

theorem aggAcc_zero_rounds (position : HashResult → Word → Word) (h : HashResult)
    (word : Word → Word) (n : Nat) : aggAcc position h 0 word n = 0 := by
  induction n with
  | zero => rfl
  | succ n ih => rw [aggAcc, ih]; exact aggregate_zero_mask 0 _

theorem testResult_zero_rounds (position : HashResult → Word → Word) (h : HashResult) (nw : Word)
    (word : Word → Word) : testResult position h 0 nw word = 1 := by
  rw [testResult, aggAcc_zero_rounds, eq64_eq_ite, if_pos rfl]

theorem testResult_zero_words (position : HashResult → Word → Word) (h : HashResult) (k : Word)
    (word : Word → Word) : testResult position h k 0 word = 1 :=
  (eq64_eq_ite 0 0).trans (if_pos rfl)

/-! ### A running TEST's reads (spec/20_memory.md R52, R56) -/

/-- Each word that the TEST running in `s` reads counts as `word` has it: the array answers so and
is not written under the TEST, or there are no rounds, so that every mask is empty. -/
def State.ReadsAs (s : State) (word : Word → Word) : Prop :=
  ∀ i : Word, i.toNat < s.nwr.toNat →
    s.kr = 0 ∨ (s.unstable = false ∧ Memory.readWord? s.array i = some (word i))

/-- A TEST that is not disturbed is not written under at the present edge (log 7). -/
theorem TestRuns.writesBelow_now {s : State} (h : TestRuns s) (hstable : s.unstable = false) :
    writesBelow s.nwr s.now.insert = false := by
  obtain ⟨n, hn⟩ := h.exists_testStepsLeft
  rw [State.unstable, hn, writesAhead_now h.now_rst] at hstable
  obtain ⟨-, hahead⟩ := Bool.or_eq_false_iff.1 hstable
  exact (Bool.or_eq_false_iff.1 hahead).1

/-- Before FIN a step of a running TEST keeps what the TEST has latched, and `R` (R123). -/
theorem TestRuns.step_keeps {s t : State} (h : TestRuns s) (hs : Machine.step s = .next t)
    (hfin : s.st ≠ .fin) :
    t.hr = s.hr ∧ t.kr = s.kr ∧ t.nwr = s.nwr ∧ t.r = s.r ∧ t.position = s.position := by
  rcases h.step_cases hs with ⟨-, rfl⟩ | ⟨-, rfl⟩ | ⟨hst, -⟩
  · exact ⟨rfl, rfl, rfl, rfl, rfl⟩
  · exact ⟨rfl, rfl, rfl, rfl, rfl⟩
  · exact absurd hst hfin

theorem State.ReadsAs.step {s t : State} {word : Word → Word} (hreads : s.ReadsAs word)
    (h : TestRuns s) (hs : Machine.step s = .next t) (hfin : s.st ≠ .fin) : t.ReadsAs word := by
  intro i hi
  obtain ⟨-, hkr, hnwr, -, -⟩ := h.step_keeps hs hfin
  rw [hnwr] at hi
  rcases hreads i hi with hk | ⟨hstable, hword⟩
  · exact .inl (hkr.trans hk)
  · obtain ⟨harray, -⟩ := step_outside hs
    refine .inr ⟨(h.unstable_eq hs hfin).trans hstable, ?_⟩
    rw [harray, Memory.readWord?_landWrite_below _ _ _ _ (h.writesBelow_now hstable) hi,
      hword]

/-- In a WORD step the mask is whole, and the word read counts as `word I` (R124). -/
theorem TestRuns.wordStep_v {s : State} {word : Word → Word} (h : TestRuns s) (hm : MaskInv s)
    (hreads : s.ReadsAs word) (hst : s.st = .word) :
    s.wordStep.v = aggregate s.v (word s.i) (buildMask s.position s.hr s.kr s.i) := by
  obtain ⟨-, -, hword, -⟩ := h.control
  obtain ⟨-, hj, hi⟩ := hword hst
  have hmask : s.m = buildMask s.position s.hr s.kr s.i := by rw [hm h.busy, hj, buildMask]
  rw [State.wordStep_v, hmask]
  rcases hreads s.i hi with hk | ⟨hstable, hread⟩
  · have hempty : buildMask s.position s.hr s.kr s.i = 0 := by rw [hk]; rfl
    rw [hempty, aggregate_zero_mask, aggregate_zero_mask]
  · rw [State.memRead_of_answer hstable hread]

/-! ### The whole operation (spec/42_test_aggregator.md R121, R125) -/

/-- `u` is what the TEST accepted in `s` has come to before its FIN step, on an array that reads as
`word`: `V` is the accumulator of `testResult` after `I` words. -/
structure TestScans (s : State) (word : Word → Word) (u : State) : Prop where
  /-- the TEST runs -/
  runs : TestRuns u
  /-- the mask builder is where the round count says (R115) -/
  mask : MaskInv u
  /-- the words still to be read are `word`'s -/
  reads : u.ReadsAs word
  /-- the hash result is the one sampled -/
  hr : u.hr = s.now.h
  /-- the round count is the one sampled -/
  kr : u.kr = s.now.k
  /-- the word count is the one sampled -/
  nwr : u.nwr = s.now.nw
  /-- the old result still shows (R21) -/
  r : u.r = s.r
  /-- the collaborator answers as it did (spec/00_scope.md R13) -/
  position : u.position = s.position
  /-- the words before `I` are aggregated (R125) -/
  v : u.v = aggAcc s.position s.now.h s.now.k word u.i.toNat

section
variable {s t u : State} {word : Word → Word}

theorem TestScans.of_accepts {ct : BitVec 6} (h : Accepts s (.test ct))
    (hr : NoReset (testSteps s.now.k s.now.nw) s) (hreads : s.acceptTest.tick.ReadsAs word) :
    TestScans s word s.acceptTest.tick where
  runs := TestRuns.of_accepts h hr
  mask := fun _ => rfl
  reads := hreads
  hr := rfl
  kr := rfl
  nwr := rfl
  r := rfl
  position := rfl
  v := rfl

/-- A ROUND step leaves `V` and `I`; a WORD step aggregates word `I` and counts it (R114, R124). -/
theorem TestScans.step_v (h : TestScans s word u) (hu : step u = .next t) (hfin : u.st ≠ .fin) :
    t.v = aggAcc s.position s.now.h s.now.k word t.i.toNat := by
  rcases h.runs.step_cases hu with ⟨-, rfl⟩ | ⟨hst, rfl⟩ | ⟨hst, -⟩
  · exact h.v
  · obtain ⟨-, -, hword, -⟩ := h.runs.control
    obtain ⟨-, -, hi⟩ := hword hst
    rw [State.tick_v, h.runs.wordStep_v h.mask h.reads hst, State.tick_i, State.wordStep_i,
      toNat_add_one_of_lt hi, aggAcc, h.v, h.position, h.hr, h.kr, BitVec.ofNat_toNat,
      BitVec.setWidth_eq]
  · exact absurd hst hfin

theorem TestScans.step (h : TestScans s word u) (hu : Machine.step u = .next t)
    (hfin : u.st ≠ .fin) : TestScans s word t :=
  have ⟨hhr, hkr, hnwr, hr, hpos⟩ := h.runs.step_keeps hu hfin
  { runs := h.runs.step hu hfin
    mask := h.mask.of_step h.runs.control hu
    reads := h.reads.step h.runs hu hfin
    hr := hhr.trans h.hr
    kr := hkr.trans h.kr
    nwr := hnwr.trans h.nwr
    r := hr.trans h.r
    position := hpos.trans h.position
    v := h.step_v hu hfin }

/-- The steps before the FIN step keep the TEST scanning. -/
theorem TestScans.run {n : Nat} (h : TestScans s word u) (hn : n < u.testStepsLeft)
    (ht : run n u = .next t) : TestScans s word t := by
  induction n generalizing u with
  | zero =>
    cases ht
    exact h
  | succ n ih =>
    obtain ⟨v, hv⟩ := exists_step_eq_next u
    have hfin : u.st ≠ .fin := fun hst => by
      rw [State.testStepsLeft_fin hst] at hn
      omega
    have hleft := h.runs.testStepsLeft_eq hv hfin
    rw [Machine.run, hv] at ht
    exact ih (h.step hv hfin) (by omega) ht

/-- The steps that are left scan the array to its end and then take the FIN step. -/
theorem TestScans.exists_run_fin {n : Nat} (h : TestScans s word u) (hn : u.testStepsLeft = n) :
    ∃ w, Machine.run n u = .next w.finTest.tick ∧ TestScans s word w ∧ w.st = .fin := by
  induction n generalizing u with
  | zero =>
    obtain ⟨m, hm⟩ := h.runs.exists_testStepsLeft
    omega
  | succ n ih =>
    by_cases hfin : u.st = .fin
    · obtain rfl : n = 0 := by
        rw [State.testStepsLeft_fin hfin] at hn
        omega
      refine ⟨u, ?_, h, hfin⟩
      rw [Machine.run, step_of_finTest h.runs.now_rst hfin h.runs.mode]
      rfl
    · obtain ⟨t, ht⟩ := exists_step_eq_next u
      have hleft := h.runs.testStepsLeft_eq ht hfin
      rw [Machine.run, ht]
      exact ih (h.step ht hfin) (by omega)

/-- In FIN every word is counted (R125). -/
theorem TestScans.i_eq (h : TestScans s word u) (hfin : u.st = .fin) : u.i = s.now.nw := by
  obtain ⟨-, -, -, hend⟩ := h.runs.control
  obtain ⟨-, hi⟩ := hend hfin
  exact (hi h.runs.mode).trans h.nwr

/-- In FIN the accumulator is that of the whole array (R125). -/
theorem TestScans.v_eq (h : TestScans s word u) (hfin : u.st = .fin) :
    u.v = aggAcc s.position s.now.h s.now.k word s.now.nw.toNat := by
  rw [h.v, h.i_eq hfin]

/-- The zero detect of the FIN step gives `testResult` (R126). -/
theorem TestScans.finTest_r (h : TestScans s word u) (hfin : u.st = .fin) :
    u.finTest.r = testResult s.position s.now.h s.now.k s.now.nw word := by
  rw [State.finTest_r, h.v_eq hfin, testResult]

/-- Before its end TEST shows `BUSY` = 1, `DONE` = 0 and the old `R` (R121). -/
theorem TestScans.shows_busy (h : TestScans s word u) :
    u.done = false ∧ u.busy = true ∧ u.r = s.r :=
  ⟨h.runs.control.done_eq_false h.runs.busy,
    Bool.eq_true_of_not_eq_false (mt u.busy_eq_false_iff.1 h.runs.busy), h.r⟩

/-- From its accept step on TEST takes its `NW*(K+1) + 2` steps, the last one being FIN (R121). -/
theorem exists_run_test {ct : BitVec 6} (h : Accepts s (.test ct))
    (hr : NoReset (testSteps s.now.k s.now.nw) s) (hreads : s.acceptTest.tick.ReadsAs word) :
    ∃ w, run (testSteps s.now.k s.now.nw) s = .next w.finTest.tick ∧ TestScans s word w ∧
      w.st = .fin := by
  rw [testSteps_eq_testStepsLeft_accept, run, step_of_accepts_test h]
  exact (TestScans.of_accepts h hr hreads).exists_run_fin rfl

end

/-- On an array that answers and is not written below `NW` under the TEST, the TEST reads the words
that the array holds at its start (R172). -/
theorem readsAs_word_of_accepts {s : State} {ct : BitVec 6} (h : Accepts s (.test ct))
    (hstable : ArrayStable (testSteps s.now.k s.now.nw) s.now.nw s)
    (hans : ArrayAnswers s s.now.nw) : s.acceptTest.tick.ReadsAs s.word := by
  obtain ⟨-, hrst, -⟩ := h
  have hahead := writesAhead_of_arrayStable hstable
  have hnow : writesBelow s.now.nw s.now.insert = false := by
    rw [testSteps_eq_testStepsLeft_accept, writesAhead_now hrst] at hahead
    exact (Bool.or_eq_false_iff.1 hahead).1
  intro i hi
  refine .inr ⟨(unstable_accept hrst).trans hahead, ?_⟩
  obtain ⟨w, hw⟩ := Option.isSome_iff_exists.1 (hans i hi)
  rw [State.tick_array, State.acceptTest_array, State.acceptTest_now,
    Memory.readWord?_landWrite_below _ _ _ _ hnow hi, State.word, hw]
  rfl

/-- Settles O39: the TEST scans the words that the array holds (`readsAs_word_of_accepts`) to the
FIN step (`exists_run_test`), whose result is `TestScans.finTest_r`; before it, it shows
`TestScans.shows_busy`; its trace is `trace_of_accepts_test`. -/
theorem testOperationComputesTestResult : Obligations.TestOperationComputesTestResult := by
  intro s ct h hr hstable hans
  have hreads := readsAs_word_of_accepts h hstable hans
  refine ⟨?_, fun n u hpos hn hu => ?_, trace_of_accepts_test h hr⟩
  · obtain ⟨w, hrun, hscan, hfin⟩ := exists_run_test h hr hreads
    exact ⟨_, hrun, rfl, rfl, hscan.finTest_r hfin, hscan.runs.mode, hscan.hr, hscan.kr, hscan.nwr,
      hscan.i_eq hfin, hscan.v_eq hfin⟩
  · obtain ⟨m, rfl⟩ : ∃ m, n = m + 1 := ⟨n - 1, by omega⟩
    rw [testSteps_eq_testStepsLeft_accept] at hn
    rw [run, step_of_accepts_test h] at hu
    exact ((TestScans.of_accepts h hr hreads).run (by omega) hu).shows_busy

/-! ### Empty loops (spec/42_test_aggregator.md R131) -/

/-- With no round the trace of TEST is that of its reads. -/
theorem testTrace_zero_rounds (nw : Word) :
    testTrace 0 nw =
      .start .test ::
        ((List.range nw.toNat).map (fun i => .read (BitVec.ofNat 64 i)) ++ [.fin]) := by
  rw [testTrace, List.map_eq_flatMap]
  rfl

/-- A TEST whose loops run zero times ends with `R` = 1, whatever the memory answers. -/
theorem run_test_of_empty_loop {s : State} {ct : BitVec 6} (h : Accepts s (.test ct))
    (hr : NoReset (testSteps s.now.k s.now.nw) s) (hempty : s.now.k = 0 ∨ s.now.nw = 0) :
    ∃ t, run (testSteps s.now.k s.now.nw) s = .next t ∧ t.done = true ∧ t.r = 1 := by
  have hreads : s.acceptTest.tick.ReadsAs fun _ => 0 := by
    intro i hi
    rcases hempty with hk | hnw
    · exact .inl hk
    · rw [State.tick_nwr, State.acceptTest_nwr, State.opNW, hnw] at hi
      exact absurd hi (Nat.not_lt_zero _)
  obtain ⟨w, hrun, hscan, hfin⟩ := exists_run_test h hr hreads
  refine ⟨_, hrun, rfl, (hscan.finTest_r hfin).trans ?_⟩
  rcases hempty with hk | hnw
  · rw [hk, testResult_zero_rounds]
  · rw [hnw, testResult_zero_words]

/-- Settles O46: the rows of TEST by `run_test_of_empty_loop` and `trace_of_accepts_test`, the row
of MASK by its whole operation (`maskOperationComputesBuildMask`) with `K` = 0. -/
theorem emptyLoopsFallThrough : Obligations.EmptyLoopsFallThrough := by
  refine ⟨fun s ct h hk _ hr => ?_, fun s ct h hnw hr => ?_, fun s ct h hk hr => ?_⟩
  · have hsteps : testSteps s.now.k s.now.nw = s.now.nw.toNat + 2 := by
      rw [testSteps, hk]
      exact congrArg (· + 2) (Nat.mul_one _)
    rw [← hsteps] at hr ⊢
    obtain ⟨t, hrun, hdone, hres⟩ := run_test_of_empty_loop h hr (.inl hk)
    refine ⟨t, hrun, hdone, hres, ?_⟩
    rw [trace_of_accepts_test h hr, hk, testTrace_zero_rounds]
  · have hsteps : testSteps s.now.k s.now.nw = 2 := by
      rw [testSteps, hnw]
      exact congrArg (· + 2) (Nat.zero_mul _)
    rw [← hsteps] at hr ⊢
    obtain ⟨t, hrun, hdone, hres⟩ := run_test_of_empty_loop h hr (.inr hnw)
    refine ⟨t, hrun, hdone, hres, ?_⟩
    rw [trace_of_accepts_test h hr, hnw]
    rfl
  · have hsteps : maskSteps s.now.k = 2 := by rw [hk]; rfl
    rw [← hsteps] at hr ⊢
    obtain ⟨⟨t, hrun, -, hdone, hres, -⟩, -, htrace⟩ := maskOperationComputesBuildMask s ct h hr
    refine ⟨t, hrun, hdone, ?_, ?_⟩
    · rw [hres, hk]
      rfl
    · rw [htrace, hk]
      rfl

end Sys2Proof.Machine

namespace Sys2Proof.Machine

/-! ### No fault (spec/60_exceptions.md R140) -/

/-- Every command answers a next state: each arm of `exec` does. -/
theorem exists_exec_eq_next (i : Instr) (s : State) : ∃ t, exec i s = .next t := by
  cases i with
  | nop ct => exact ⟨s, rfl⟩
  | rsv6 ct => exact ⟨s, rfl⟩
  | rsv7 ct => exact ⟨s, rfl⟩
  | eq64 ct => exact ⟨s.complete _, rfl⟩
  | sel64 ign cond => exact ⟨s.complete _, rfl⟩
  | shl64 amount => exact ⟨s.complete _, rfl⟩
  | mask ct => exact ⟨s.acceptMask, rfl⟩
  | test ct => exact ⟨s.acceptTest, rfl⟩

/-- Settles O21: steps by `exists_step_eq_next`, commands by `exists_exec_eq_next`, and `Fault` has
no constructor. -/
theorem everyStepAnswersNextState : Obligations.EveryStepAnswersNextState :=
  ⟨exists_step_eq_next, exists_exec_eq_next, nofun⟩

end Sys2Proof.Machine

/-!
Reset and hazards (spec/70_reset_and_hazards.md): every step keeps the accumulator of the aggregator
(R125, under the premises of R172), CORE holds its registers in IDLE (R163), and the reset step wins
over everything (R160).
-/

namespace Sys2Proof.Machine

/-! ### The array under a running TEST (spec/20_memory.md R56; log 7) -/

/-- Where a TEST is not disturbed after an edge, the edge wrote no word that the TEST reads. -/
theorem State.writesBelow_of_tick_stable {u : State} (hb : u.st ≠ .idle) (hm : u.mode = .test)
    (hstable : u.tick.unstable = false) : writesBelow u.nwr u.now.insert = false := by
  obtain ⟨hdist, -⟩ := Bool.or_eq_false_iff.1 hstable
  obtain ⟨-, hhits⟩ := Bool.or_eq_false_iff.1 hdist
  have hbusy : u.busy = true := Bool.eq_true_of_not_eq_false (mt u.busy_eq_false_iff.1 hb)
  simpa [State.hits, hbusy, hm] using hhits

/-! ### The accumulator of the aggregator (spec/42_test_aggregator.md R125) -/

/-- After `n` words the accumulator depends on those words alone (R120). -/
theorem aggAcc_congr (position : HashResult → Word → Word) (h : HashResult) (k : Word)
    {word word' : Word → Word} {n : Nat} (hw : ∀ i : Word, i.toNat < n → word i = word' i) :
    aggAcc position h k word n = aggAcc position h k word' n := by
  induction n with
  | zero => rfl
  | succ n ih =>
    have hlast : (BitVec.ofNat 64 n).toNat < n + 1 := Nat.lt_succ_of_le (Nat.mod_le _ _)
    rw [aggAcc, aggAcc, ih fun i hi => hw i (Nat.lt_succ_of_lt hi), hw _ hlast]

/-- While a TEST runs its word count does not pass its bound (R24). -/
theorem ControlInv.i_le_nwr {s : State} (hc : ControlInv s) (hb : s.st ≠ .idle)
    (hm : s.mode = .test) : s.i.toNat ≤ s.nwr.toNat := by
  obtain ⟨-, hround, hword, hfin⟩ := hc
  cases hst : s.st with
  | idle => exact absurd hst hb
  | round =>
    obtain ⟨-, hi⟩ := hround hst
    exact Nat.le_of_lt (hi hm)
  | word =>
    obtain ⟨-, -, hi⟩ := hword hst
    exact Nat.le_of_lt hi
  | fin =>
    obtain ⟨-, hi⟩ := hfin hst
    rw [hi hm]

/-- The edge keeps the invariant for register writes `u` that put the accumulator over the array as
it was into `V`: the words that a TEST counts are not written under it. -/
theorem AggInv.of_tick {u : State} (hc : ControlInv u)
    (hv : u.st ≠ .idle → u.mode = .test → u.tick.unstable = false → ArrayAnswers u u.nwr →
      u.v = aggAcc u.position u.hr u.kr u.word u.i.toNat) : AggInv u.tick := by
  intro hb hm hstable hans
  have hwrite := State.writesBelow_of_tick_stable (u := u) hb hm hstable
  have hread : ∀ i : Word, i.toNat < u.nwr.toNat →
      Memory.readWord? u.tick.array i = Memory.readWord? u.array i := fun _ hi =>
    Memory.readWord?_landWrite_below _ _ _ _ hwrite hi
  have hans' : ArrayAnswers u u.nwr := fun i hi => hread i hi ▸ hans i hi
  refine (hv hb hm hstable hans').trans (aggAcc_congr _ _ _ fun i hi => ?_)
  rw [State.word, State.word, hread i (Nat.lt_of_lt_of_le hi (hc.i_le_nwr hb hm))]

/-- A command starts no TEST, or one that has counted no word. -/
theorem aggInv_exec_tick {i : Instr} {s u : State} (hidle : s.st = .idle)
    (h : exec i s = .next u) : AggInv u.tick := by
  obtain rfl | ⟨x, rfl⟩ | ⟨ct, -, rfl⟩ | ⟨ct, -, rfl⟩ := exec_cases h
  · exact fun hb => absurd hidle hb
  · exact fun hb => absurd hidle hb
  · exact fun _ hm => nomatch hm
  · exact fun _ _ _ _ => rfl

section
variable {s : State}

/-- A ROUND step leaves `V` and the words counted as they are. -/
theorem AggInv.roundStep_tick (ha : AggInv s) (hc : ControlInv s) (hr : s.now.rst = false)
    (hround : s.st = .round) : AggInv s.roundStep.tick := by
  have hbusy : s.st ≠ .idle := by simp [hround]
  refine AggInv.of_tick (hc.roundStep hround) fun hb hm hstable hans => ?_
  have hsame := unstable_step hc hbusy hm hr (step_of_round hr hround) hb
  exact ha hbusy hm (hsame ▸ hstable) hans

/-- In a WORD step the mask is whole, and the word read is the array's: the step goes on with the
aggregator by one word (R120, R124). -/
theorem AggInv.wordStep_v (ha : AggInv s) (hc : ControlInv s) (hmask : MaskInv s)
    (hword : s.st = .word) (hstable : s.unstable = false) (hans : ArrayAnswers s s.nwr) :
    s.wordStep.v = aggAcc s.position s.hr s.kr s.word (s.i + 1).toNat := by
  have hbusy : s.st ≠ .idle := by simp [hword]
  obtain ⟨-, -, hcount, -⟩ := hc
  obtain ⟨hm, hj, hi⟩ := hcount hword
  have hwhole : s.m = buildMask s.position s.hr s.kr s.i := by rw [hmask hbusy, hj, buildMask]
  obtain ⟨w, hw⟩ := Option.isSome_iff_exists.1 (hans s.i hi)
  have hread : s.memRead = s.word s.i := by
    rw [State.memRead_of_answer hstable hw, State.word, hw, Option.getD_some]
  rw [State.wordStep_v, hwhole, hread, ha hbusy hm hstable hans, toNat_add_one_of_lt hi, aggAcc,
    BitVec.ofNat_toNat, BitVec.setWidth_eq]

theorem AggInv.wordStep_tick (ha : AggInv s) (hc : ControlInv s) (hmask : MaskInv s)
    (hr : s.now.rst = false) (hword : s.st = .word) : AggInv s.wordStep.tick := by
  refine AggInv.of_tick (hc.wordStep hword) fun hb hm hstable hans => ?_
  have hsame := unstable_step hc (by simp [hword]) hm hr (step_of_word hr hword) hb
  exact ha.wordStep_v hc hmask hword (hsame ▸ hstable) hans

/-- Only a WORD step counts a word; the accept step starts at none, and the other steps leave `V`
or end in IDLE. -/
theorem AggInv.of_step {t : State} (ha : AggInv s) (hc : ControlInv s) (hmask : MaskInv s)
    (h : step s = .next t) : AggInv t := by
  rcases step_cases h with ⟨-, rfl⟩ | ⟨-, hidle, u, he, rfl⟩ | ⟨hr, hround, rfl⟩ |
    ⟨hr, hword, rfl⟩ | ⟨-, -, -, rfl⟩ | ⟨-, -, -, rfl⟩
  · exact fun hb => absurd rfl hb
  · exact aggInv_exec_tick hidle he
  · exact ha.roundStep_tick hc hr hround
  · exact ha.wordStep_tick hc hmask hr hword
  · exact fun hb => absurd rfl hb
  · exact fun hb => absurd rfl hb

end

/-- Settles O35: every step keeps the invariant (`AggInv.of_step`), and in FIN of a TEST the control
invariant gives `I` = `NWR`. -/
theorem stepKeepsAggregateAccumulator : Obligations.StepKeepsAggregateAccumulator := by
  refine ⟨fun s t hc hmask ha h => ha.of_step hc hmask h, fun s hc ha hfin hm hstable hans => ?_⟩
  obtain ⟨-, -, -, hend⟩ := hc
  obtain ⟨-, hi⟩ := hend hfin
  rw [← hi hm]
  exact ha (by simp [hfin]) hm hstable hans

/-! ### IDLE without a command (spec/70_reset_and_hazards.md R163) -/

/-- At the next `n` edges no command comes that starts anything: NOP or a reserved code (R97,
spec/30_encoding.md R73). -/
def NoCommand (n : Nat) (s : State) : Prop :=
  ∀ x ∈ s.inputs.take n, commandEvent (decode x.cmd) = .idle

theorem NoCommand.now {n : Nat} {s : State} (h : NoCommand (n + 1) s) :
    commandEvent (decode s.now.cmd) = .idle := by
  cases hin : s.inputs with
  | nil =>
    rw [State.now, hin]
    decide
  | cons x rest =>
    rw [State.now, hin]
    exact h x (by simp [hin])

theorem NoCommand.step {n : Nat} {s t : State} (h : NoCommand (n + 1) s)
    (hs : step s = .next t) : NoCommand n t := by
  obtain ⟨-, htail⟩ := step_outside hs
  intro x hx
  have htake : t.inputs.take n = (s.inputs.take (n + 1)).tail := by
    rw [htail, List.tail_take_eq_take_tail, Nat.add_sub_cancel]
  exact h x (List.mem_of_mem_tail (htake ▸ hx))

/-- An idle machine keeps its registers, `ST` among them, for any number of steps: each step accepts
a command that starts nothing (`accepts_of_event_idle`). -/
theorem exists_run_regs_of_noCommand {n : Nat} {s : State} (hidle : s.st = .idle)
    (hr : NoReset n s) (hcmd : NoCommand n s) : ∃ t, run n s = .next t ∧ t.regs = s.regs := by
  induction n generalizing s with
  | zero => exact ⟨s, rfl, rfl⟩
  | succ n ih =>
    obtain ⟨-, ⟨u, hu, hregs⟩, -⟩ := accepts_of_event_idle hcmd.now ⟨hidle, hr.now, rfl⟩
    have hidle' : u.st = .idle := (congrArg Regs.st hregs).trans hidle
    obtain ⟨t, ht, hsame⟩ := ih hidle' (hr.step hu) (hcmd.step hu)
    rw [run, hu]
    exact ⟨t, ht, hsame.trans hregs⟩

/-- Settles O47: the registers as a whole are kept (`exists_run_regs_of_noCommand`), hence each of
the twelve. -/
theorem idleHoldsAllRegisters : Obligations.IdleHoldsAllRegisters := by
  intro n s ⟨hidle, hr⟩ hcmd
  obtain ⟨t, ht, hregs⟩ := exists_run_regs_of_noCommand hidle hr hcmd
  obtain ⟨hst, hrest⟩ := Regs.mk.inj hregs
  exact ⟨t, ht, hst.trans hidle, hrest⟩

/-! ### The reset step (spec/70_reset_and_hazards.md R160) -/

/-- `rst` = 1 wins over the command and over a running operation (spec/60_exceptions.md R143). -/
theorem step_of_rst {s : State} (hr : s.now.rst = true) : step s = .next s.resetStep.tick := by
  rw [step, if_pos hr]

/-- In IDLE CORE is not busy and asks nothing of the collaborators, and the gated ports show 0
(spec/10_state.md R23, R35). -/
theorem State.outputs_of_idle {s : State} (h : s.st = .idle) :
    s.busy = false ∧ s.posReq = false ∧ s.memReq = false ∧
      s.outputs.posH = ⟨0, 0, 0, 0⟩ ∧ s.outputs.posJ = 0 ∧ s.outputs.memAddr = 0 := by
  have hround : s.st ≠ .round := by simp [h]
  have hword : s.st ≠ .word := by simp [h]
  obtain ⟨hposH, hposJ⟩ := State.outputs_pos_of_ne_round hround
  exact ⟨s.busy_eq_false_iff.2 h, Bool.eq_false_iff.2 (mt s.posReq_eq_true_iff.1 hround),
    Bool.eq_false_iff.2 (mt s.memReq_eq_true_iff.1 hword), hposH, hposJ,
    State.outputs_memAddr_of_ne_word hword⟩

/-- Settles O19: the step is the reset step (`step_of_rst`), which ends in IDLE
(`State.outputs_of_idle`). -/
theorem resetStepWinsOverEverything : Obligations.ResetStepWinsOverEverything := by
  intro s hr
  have hidle : s.resetStep.tick.st = .idle := rfl
  obtain ⟨hbusy, hposReq, hmemReq, hposH, hposJ, hmemAddr⟩ := State.outputs_of_idle hidle
  exact ⟨_, step_of_rst hr, hidle, rfl, hbusy, hposReq, hmemReq, hposH, hposJ, hmemAddr, rfl,
    State.event_of_rst hr⟩

end Sys2Proof.Machine

/-!
The units on their operands (spec/40_primitives.md), and `buildMask` and `testResult` bit by bit
(spec/41_mask_builder.md R110, spec/42_test_aggregator.md R120): which bit each position claims, and
when the zero detect finds none of them missing.
-/

namespace Sys2Proof.Machine

/-! ### The whole mask (spec/41_mask_builder.md R115) -/

/-- Settles O34: every step keeps the invariant (`MaskInv.of_step`), and `buildMask` is the
accumulator after all `KR` rounds. -/
theorem stepKeepsMaskAccumulator : Obligations.StepKeepsMaskAccumulator := by
  refine ⟨fun s t hc hm h => hm.of_step hc h, fun s hm hb hj => ?_⟩
  rw [hm hb, hj, buildMask]

/-! ### The primitives (spec/40_primitives.md R90, R94) -/

theorem eq64_eq_one_iff (x y : Word) : eq64 x y = 1 ↔ x = y := by
  rw [eq64_eq_ite]
  by_cases h : x = y
  · exact iff_of_true (if_pos h) h
  · exact iff_of_false (by simp [h]) h

/-- The zero detect as the NOR of the bits. -/
theorem eq_zero_iff_getLsbD (d : Word) : d = 0 ↔ ∀ b < 64, d.getLsbD b = false := by
  refine ⟨fun h b _ => by rw [h]; exact BitVec.getLsbD_zero, fun h => ?_⟩
  refine BitVec.eq_of_getLsbD_eq fun b hb => (h b hb).trans BitVec.getLsbD_zero.symm

/-- Settles O1: the unit decides equality (`eq64_eq_ite`), which is symmetric, and equal operands are
those whose difference has no bit set (`eq_zero_iff_getLsbD`). -/
theorem eqUnitDecidesEquality : Obligations.EqUnitDecidesEquality := by
  intro x y
  refine ⟨eq64_eq_ite x y, ?_, getLsbD_63_not_and_sub_one (x ^^^ y), ?_⟩
  · rw [eq64_eq_ite, eq64_eq_ite]
    exact if_congr eq_comm rfl rfl
  · rw [eq64_eq_one_iff, ← eq_zero_iff_getLsbD]
    exact BitVec.xor_eq_zero_iff.symm

/-- The next stage's bit is among the bits of `amount` that are not paid for yet. -/
theorem getLsbD_shlAfter_budget {n : Nat} (hn : n < 6) (x : Word) (amount : BitVec 6) :
    (shlAfter n x amount).2.getLsbD (5 - n) = amount.getLsbD (5 - n) := by
  have hbit : 5 - n < 6 - n := by omega
  rw [← BitVec.testBit_toNat, ← BitVec.testBit_toNat, toNat_shlAfter_budget (Nat.le_of_lt hn),
    Nat.testBit_mod_two_pow, decide_eq_true hbit, Bool.true_and]

/-- Settles O3: the unit is the left shift (`shl64_eq_shiftLeft`), the budget is
`toNat_shlAfter_budget`, and a stage's comparison finds the stage's bit in it. -/
theorem shlUnitIsLeftShift : Obligations.ShlUnitIsLeftShift := by
  refine fun x amount => ⟨shl64_eq_shiftLeft x amount, ?_,
    fun n hn => toNat_shlAfter_budget hn x amount, fun n hn => ?_⟩
  · rw [shl64_eq_shiftLeft, BitVec.toNat_shiftLeft, Nat.shiftLeft_eq]
  · rw [eq64_and_one_shiftLeft _ (by omega), getLsbD_shlAfter_budget hn]

/-! ### The bits of a mask (spec/41_mask_builder.md R110) -/

/-- A round's term has one bit, that of its position, and in the position's word only. -/
theorem getLsbD_roundTerm_iff (p w : Word) (b : Nat) :
    (roundTerm p w).getLsbD b = true ↔ posWord p = w ∧ (posBit p).toNat = b := by
  have hone : ((1 : Word) <<< (posBit p).toNat).getLsbD b = decide ((posBit p).toNat = b) := by
    rw [show (1 : Word) <<< (posBit p).toNat = BitVec.twoPow 64 (posBit p).toNat from rfl,
      BitVec.getLsbD_twoPow, decide_eq_true (posBit p).isLt, Bool.true_and]
  rw [roundTerm, shl64_eq_shiftLeft, eq64_eq_ite]
  by_cases hw : posWord p = w
  · rw [if_pos hw, hone, decide_eq_true_iff]
    exact (and_iff_right hw).symm
  · simp [hw]

/-- A round whose position lies in another word adds nothing to the mask (R110, R130). -/
theorem roundTerm_of_ne {p w : Word} (h : posWord p ≠ w) : roundTerm p w = 0 := by
  refine (eq_zero_iff_getLsbD _).2 fun b hb => Bool.eq_false_iff.2 fun hbit => ?_
  exact h ((getLsbD_roundTerm_iff p w b).1 hbit).1

section
variable (position : HashResult → Word → Word) (h : HashResult)

/-- The accumulator has the bits that its rounds have claimed. -/
theorem getLsbD_maskAcc_iff (w : Word) (n b : Nat) :
    (maskAcc position h w n).getLsbD b = true ↔
      ∃ j < n, posWord (position h (BitVec.ofNat 64 j)) = w ∧
        (posBit (position h (BitVec.ofNat 64 j))).toNat = b := by
  induction n with
  | zero => simp [maskAcc]
  | succ n ih =>
    rw [maskAcc, BitVec.getLsbD_or, Bool.or_eq_true, ih, getLsbD_roundTerm_iff,
      Nat.exists_lt_succ_right]

/-- No position lies in a word of index 2^58 or more (R53), so nothing is claimed there. -/
theorem maskAcc_of_large {w : Word} (hw : 2 ^ 58 ≤ w.toNat) (n : Nat) :
    maskAcc position h w n = 0 := by
  refine (eq_zero_iff_getLsbD _).2 fun b hb => Bool.eq_false_iff.2 fun hbit => ?_
  obtain ⟨j, -, hword, -⟩ := (getLsbD_maskAcc_iff position h w n b).1 hbit
  have hindex := toNat_posWord (position h (BitVec.ofNat 64 j))
  have hlt := (position h (BitVec.ofNat 64 j)).isLt
  rw [hword] at hindex
  omega

end

/-- Settles O5: `buildMask` is the accumulator after `k` rounds, with the bits that they claim
(`getLsbD_maskAcc_iff`), none of them in a word of large index (`maskAcc_of_large`). -/
theorem buildMaskMarksClaimedBits : Obligations.BuildMaskMarksClaimedBits :=
  fun position h k w =>
    ⟨fun b _ => getLsbD_maskAcc_iff position h w k.toNat b,
      fun hw => maskAcc_of_large position h hw k.toNat⟩

/-! ### The zero detect of a TEST (spec/42_test_aggregator.md R127, R130) -/

section
variable (position : HashResult → Word → Word) (h : HashResult)

/-- Nothing of a mask is missing in a word exactly when the word has all the mask's bits. -/
theorem not_and_eq_zero_iff (word mask : Word) :
    (~~~word) &&& mask = 0 ↔ ∀ b < 64, mask.getLsbD b = true → word.getLsbD b = true := by
  rw [eq_zero_iff_getLsbD]
  refine forall₂_congr fun b hb => ?_
  rw [BitVec.getLsbD_and, BitVec.getLsbD_not, decide_eq_true hb]
  cases word.getLsbD b <;> simp

/-- Nothing is missing in word `w` exactly when every bit claimed in it is 1 in the array. -/
theorem not_and_buildMask_eq_zero_iff (k w : Word) (word : Word → Word) :
    (~~~word w) &&& buildMask position h k w = 0 ↔
      ∀ j < k.toNat, posWord (position h (BitVec.ofNat 64 j)) = w →
        arrayBit word (position h (BitVec.ofNat 64 j)) = true := by
  rw [not_and_eq_zero_iff]
  constructor
  · intro hall j hj hword
    have hlt := (posBit (position h (BitVec.ofNat 64 j))).isLt
    rw [arrayBit, hword]
    exact hall _ hlt ((getLsbD_maskAcc_iff ..).2 ⟨j, hj, hword, rfl⟩)
  · intro hall b hb hbit
    obtain ⟨j, hj, hword, rfl⟩ := (getLsbD_maskAcc_iff ..).1 hbit
    rw [← hword]
    exact hall j hj hword

/-- The accumulator is 0 as long as nothing is missing in any word (R120). -/
theorem aggAcc_eq_zero_iff (k : Word) (word : Word → Word) (n : Nat) :
    aggAcc position h k word n = 0 ↔
      ∀ i < n,
        (~~~word (BitVec.ofNat 64 i)) &&& buildMask position h k (BitVec.ofNat 64 i) = 0 := by
  induction n with
  | zero => simp [aggAcc]
  | succ n ih =>
    rw [aggAcc, aggregate, Nat.forall_lt_succ_right, ← ih]
    exact BitVec.or_eq_zero_iff

/-- R127: the result is 1 exactly when every claimed bit of a word that is scanned is 1. -/
theorem testResult_eq_one_iff (k nw : Word) (word : Word → Word) :
    testResult position h k nw word = 1 ↔
      ∀ j < k.toNat,
        nw.toNat ≤ (posWord (position h (BitVec.ofNat 64 j))).toNat ∨
        arrayBit word (position h (BitVec.ofNat 64 j)) = true := by
  simp only [testResult, eq64_eq_one_iff, aggAcc_eq_zero_iff, not_and_buildMask_eq_zero_iff]
  constructor
  · intro hall j hj
    refine (Nat.lt_or_ge _ _).symm.imp_right fun hi => hall _ hi j hj ?_
    rw [BitVec.ofNat_toNat, BitVec.setWidth_eq]
  · intro hall i hi j hj hword
    refine (hall j hj).resolve_left fun hout => ?_
    rw [hword, BitVec.toNat_ofNat] at hout
    exact absurd (hout.trans (Nat.mod_le _ _)) (Nat.not_le_of_lt hi)

theorem testResult_eq_one_or_zero (k nw : Word) (word : Word → Word) :
    testResult position h k nw word = 1 ∨ testResult position h k nw word = 0 := by
  rw [testResult, eq64_eq_ite]
  exact ite_eq_or_eq ..

variable {position h}

/-- No false negatives (R129). -/
theorem testResult_of_referenceTest {k : Word} (nw : Word) {word : Word → Word}
    (href : ReferenceTest position h k word) : testResult position h k nw word = 1 :=
  (testResult_eq_one_iff ..).2 fun j hj => .inr (href j hj)

/-- A position below `m` lies in one of the `ceil(m/64)` words. -/
theorem PositionInRange.posWord_lt {k nw : Word} {m j : Nat} (hr : PositionInRange position h k nw m)
    (hj : j < k.toNat) : (posWord (position h (BitVec.ofNat 64 j))).toNat < nw.toNat := by
  obtain ⟨hpos, hnw⟩ := hr
  have hlt := hpos j hj
  rw [toNat_posWord, hnw]
  omega

/-- Within the range contract TEST is the reference test (R127). -/
theorem PositionInRange.testResult_eq_one_iff {k nw : Word} {m : Nat}
    (hr : PositionInRange position h k nw m) (word : Word → Word) :
    testResult position h k nw word = 1 ↔ ReferenceTest position h k word := by
  rw [Machine.testResult_eq_one_iff]
  exact forall₂_congr fun j hj => or_iff_right (Nat.not_le_of_lt (hr.posWord_lt hj))

end

/-- Settles O6: `testResult_eq_one_iff`, and with the range contract no position is out of range
(`PositionInRange.testResult_eq_one_iff`). -/
theorem testResultAgreesWithReference : Obligations.TestResultAgreesWithReference :=
  fun position h k nw word =>
    ⟨testResult_eq_one_iff position h k nw word, testResult_eq_one_or_zero position h k nw word,
      fun _ hr => hr.testResult_eq_one_iff word⟩

/-- Settles O7: the position's word is none that is scanned (`roundTerm_of_ne`), and
`testResult_eq_one_iff` asks nothing of such a position. -/
theorem outOfRangePositionOnlyMovesTowardOne :
    Obligations.OutOfRangePositionOnlyMovesTowardOne := by
  refine fun position other h k nw word => ⟨fun p w hp hw => ?_, fun hsame hother => ?_⟩
  · refine roundTerm_of_ne fun e => ?_
    rw [e] at hp
    exact absurd hw (Nat.not_lt_of_le hp)
  · rw [testResult_eq_one_iff] at hother ⊢
    intro j hj
    rcases hsame j hj with he | hout
    · rw [he]
      exact hother j hj
    · exact .inl hout

end Sys2Proof.Machine

/-!
The inserter's writes at the edges (spec/70_reset_and_hazards.md R164), what an observer of MASK and
TEST sees (spec/41_mask_builder.md R117, spec/42_test_aggregator.md R128, R129), and the properties
through which a defect shows (spec/60_exceptions.md R153).
-/

namespace Sys2Proof.Machine

/-! ### The inserter's writes (spec/20_memory.md R51, R56; log 1, log 7) -/

/-- The edge marks a running TEST that its write disturbs (log 7). -/
theorem State.tick_disturbed_of_write {u : State} {idx value : Word} (hb : u.st ≠ .idle)
    (hm : u.mode = .test) (hins : u.now.insert = some (idx, value)) (hlt : idx.toNat < u.nwr.toNat) :
    u.tick.disturbed = true := by
  simp [State.hits, State.busy, hb, hm, hins, hlt]

/-- Before the edge CORE's own register writes leave the port record as it is. -/
theorem exists_eq_tick_of_step {s t : State} (h : step s = .next t) :
    ∃ u : State, t = u.tick ∧ u.now = s.now := by
  rcases step_cases h with ⟨-, rfl⟩ | ⟨-, -, u, he, rfl⟩ | ⟨-, -, rfl⟩ | ⟨-, -, rfl⟩ |
    ⟨-, -, -, rfl⟩ | ⟨-, -, -, rfl⟩
  case inr.inl =>
    obtain ⟨-, -, hin, -⟩ := exec_keeps_outside he
    exact ⟨u, rfl, by rw [State.now, State.now, hin]⟩
  all_goals exact ⟨_, rfl, rfl⟩

/-- Settles O27: the edge sees the write beside the registers that CORE has just written
(`exists_eq_tick_of_step`), which are those of the TEST that runs on
(`State.tick_disturbed_of_write`). -/
theorem forbiddenWriteMarksRunningTest : Obligations.ForbiddenWriteMarksRunningTest := by
  intro s t idx value hins h hb hm hlt
  obtain ⟨u, rfl, hnow⟩ := exists_eq_tick_of_step h
  exact State.tick_disturbed_of_write hb hm (hnow ▸ hins) hlt

/-- Settles O36: the array after a step is the one that the inserter's write leaves (`step_outside`),
and that write keeps the form (`Memory.wf_landWrite`). -/
theorem stepKeepsArrayCanonical : Obligations.StepKeepsArrayCanonical := by
  intro s t hwf h
  obtain ⟨harr, -⟩ := step_outside h
  rw [MemoryInv, harr]
  exact Memory.wf_landWrite _ _ hwf

/-- Settles O16: in either case the port carries a free value (`State.memRead_of_unstable`,
`State.memRead_of_unanswered`), and the WORD step aggregates it as it would any word. -/
theorem unansweredReadIsFreeValue : Obligations.UnansweredReadIsFreeValue := by
  intro s hst hr hfree
  have hread : s.memRead = Config.freeWord s.draws :=
    hfree.elim State.memRead_of_unstable State.memRead_of_unanswered
  refine ⟨⟨_, step_of_word hr hst, rfl, ?_⟩, State.event_of_word hr hst⟩
  rw [← nxt_test_zero, ← hread]
  rfl

/-! ### What an observer sees (spec/41_mask_builder.md R117, spec/42_test_aggregator.md R128) -/

/-- While rounds are left MASK asks the position collaborator for round `n` with the sampled hash
result, and asks nothing of the array (R117). -/
theorem MaskRuns.outputs {s u : State} {n : Nat} (h : MaskRuns s n u) (hn : n < s.now.k.toNat) :
    u.outputs.posReq = true ∧ u.outputs.posH = s.now.h ∧ u.outputs.posJ = BitVec.ofNat 64 n ∧
      u.outputs.memReq = false := by
  have hst : u.st = .round := h.st_eq.trans (nxt_mask_of_lt hn _ _)
  obtain ⟨hposH, hposJ⟩ := State.outputs_pos_of_round hst
  exact ⟨u.posReq_eq_true_iff.2 hst, hposH.trans (congrArg Regs.hr h.regs), hposJ.trans h.j_eq,
    Bool.eq_false_iff.2 (mt u.memReq_eq_true_iff.1 (by simp [hst]))⟩

/-- Settles O40: the trace is that of the whole operation (`maskOperationComputesBuildMask`), and
`n` ROUND steps after the accept step the ports ask for round `n` (`MaskRuns.outputs`). -/
theorem maskTraceDependsOnRoundCountOnly : Obligations.MaskTraceDependsOnRoundCountOnly := by
  intro s ct h hr
  obtain ⟨-, -, htrace⟩ := maskOperationComputesBuildMask s ct h hr
  refine ⟨htrace, fun n u hn hu => ?_⟩
  rw [run, step_of_accepts_mask h] at hu
  obtain ⟨hruns, -⟩ := (MaskRuns.of_accepts h hr).rounds (by omega) hu
  rw [Nat.zero_add] at hruns
  exact hruns.outputs hn

/-- Settles O41: the events that a TEST has left are a function of its counters and their bounds
(`trace_of_accepts_test`). -/
theorem testTraceDependsOnPublicDataOnly : Obligations.TestTraceDependsOnPublicDataOnly :=
  fun _ _ h hr => trace_of_accepts_test h hr

/-- Settles O45: TEST ends with `testResult` (`testOperationComputesTestResult`), which has no false
negatives (`testResult_of_referenceTest`). -/
theorem insertedElementTestsPresent : Obligations.InsertedElementTestsPresent := by
  intro s ct h hr hstable hans href
  obtain ⟨⟨t, hrun, -, hdone, hres, -⟩, -⟩ :=
    testOperationComputesTestResult s ct h hr hstable hans
  exact ⟨t, hrun, hdone, hres.trans (testResult_of_referenceTest _ href)⟩

/-! ### How defects show (spec/60_exceptions.md R153) -/

/-- The primitive laws fix the primitives: a select is told by both values of its one-bit `cond`. -/
theorem Implementation.PrimitiveLaws.eq_core {d : Implementation} (hd : d.PrimitiveLaws) :
    d.eq = eq64 ∧ d.select = select64 ∧ d.shl = shl64 := by
  obtain ⟨heq, hselect, hshl⟩ := hd
  refine ⟨funext₂ fun x y => ?_, funext fun c => funext₂ fun x y => ?_, funext₂ fun x amount => ?_⟩
  · rw [heq, eq64_eq_ite]
  · obtain ⟨hone, hzero⟩ := hselect x y
    rw [select64_eq_ite]
    by_cases hc : c = 1
    · rw [if_pos hc, hc, hone]
    · rw [if_neg hc, (BitVec.eq_zero_or_eq_one c).resolve_right hc]
      exact hzero
  · rw [hshl, shl64_eq_shiftLeft]

/-- Within the range contract the reference test fixes the result. -/
theorem Implementation.AgreesWithReference.test_eq {d e : Implementation}
    (hd : d.AgreesWithReference) (he : e.AgreesWithReference) {position : HashResult → Word → Word}
    {h : HashResult} {k nw : Word} {m : Nat} (hr : PositionInRange position h k nw m)
    (word : Word → Word) : d.test position h k nw word = e.test position h k nw word := by
  rcases hd _ _ _ _ word _ hr with ⟨hd1, href⟩ | ⟨hd0, hnot⟩ <;>
    rcases he _ _ _ _ word _ hr with ⟨he1, href'⟩ | ⟨he0, hnot'⟩
  · rw [hd1, he1]
  · exact absurd href hnot'
  · exact absurd href' hnot
  · rw [hd0, he0]

theorem coreImplementation_primitiveLaws : coreImplementation.PrimitiveLaws :=
  ⟨eq64_eq_ite, fun x y => ⟨select64_eq_ite 1 x y, select64_eq_ite 0 x y⟩, shl64_eq_shiftLeft⟩

theorem coreImplementation_agreesWithReference : coreImplementation.AgreesWithReference := by
  intro position h k nw word m hr
  have hiff := hr.testResult_eq_one_iff word
  rcases testResult_eq_one_or_zero position h k nw word with h1 | h0
  · exact .inl ⟨h1, hiff.1 h1⟩
  · exact .inr ⟨h0, fun href => nomatch h0.symm.trans (hiff.2 href)⟩

theorem coreImplementation_fullScan : coreImplementation.FullScan :=
  fun s ⟨⟨ct, h⟩, hr⟩ => testReadsEveryWordOnce s ct h hr

theorem coreImplementation_traceIsOutcomeIndependent :
    coreImplementation.TraceIsOutcomeIndependent := by
  intro s t ⟨⟨_, hs⟩, hrs⟩ ⟨⟨_, ht⟩, hrt⟩ hk hnw
  show trace (testSteps s.now.k s.now.nw) s = trace (testSteps t.now.k t.now.nw) t
  rw [trace_of_accepts_test hs hrs, trace_of_accepts_test ht hrt, hk, hnw]

theorem coreImplementation_showsNoDefect : coreImplementation.ShowsNoDefect where
  primitives := coreImplementation_primitiveLaws
  reference := coreImplementation_agreesWithReference
  noFalseNegatives := fun _ _ _ nw _ href => testResult_of_referenceTest nw href
  fullScan := coreImplementation_fullScan
  traceIsOutcomeIndependent := coreImplementation_traceIsOutcomeIndependent

/-- Settles O49: CORE has the properties (`coreImplementation_showsNoDefect`); they fix the primitives
(`Implementation.PrimitiveLaws.eq_core`), the results within the range contract
(`Implementation.AgreesWithReference.test_eq`), and the word indices read, which the full scan
names. -/
theorem propertiesFixPrimitivesResultsAndReads :
    Obligations.PropertiesFixPrimitivesResultsAndReads := by
  refine ⟨coreImplementation_showsNoDefect, fun d hd => ?_⟩
  obtain ⟨heq, hselect, hshl⟩ := hd.primitives.eq_core
  exact ⟨heq, hselect, hshl,
    fun _ _ _ _ word _ hr => hd.reference.test_eq coreImplementation_agreesWithReference hr word,
    fun s hs => (hd.fullScan s hs).trans (coreImplementation_fullScan s hs).symm⟩

end Sys2Proof.Machine
